-- ==== Sys2Proof/Word.lean ====
section
/-! DEFINITION. The word types of the core: 64-bit values, frame bytes, command words (R8, R10). -/

namespace Sys2Proof

/-- A 64-bit value: DIN, DOUT, FIELD, WORD, ACC.box (R8, R10). -/
abbrev Word64 := BitVec 64

/-- A frame byte (R36). -/
abbrev Byte := BitVec 8

/-- A command word `CMD[31:0]` (R80, R81). -/
abbrev CmdWord := BitVec 32

end Sys2Proof
end

