-- ==== Sys2Proof/Machine/AddressMap.lean ====
section
/-! DEFINITION. The register address map of R61: which register an address names, its width and its access. -/

namespace Sys2Proof.Machine

/-- The registers of the address map of R61, each under its own name. -/
inductive Reg where
  | field (k : Fin 2) (i : Fin 64)    -- FIELDk_i
  | word (k : Fin 2)                  -- WORDk
  | frame (j : Fin 18)                -- FRAME_j
  | frameLen                          -- FRAME_LEN
  | accBox                            -- ACC_BOX
  | accCount                          -- ACC_COUNT
  | errstat                           -- ERRSTAT
  | config                            -- CONFIG
  | layout (k : Fin 2) (i : Fin 64)   -- LAYOUTk_i
deriving DecidableEq, Repr

/-- The register an address names; `none` for the reserved addresses (R61). -/
def regAt (a : BitVec 9) : Option Reg :=
  let n := a.toNat
  if h : n < 0x080 then some (.field ⟨n / 64, by omega⟩ ⟨n % 64, by omega⟩)
  else if n = 0x080 then some (.word 0)
  else if n = 0x081 then some (.word 1)
  else if h : 0x090 ≤ n ∧ n ≤ 0x0A1 then some (.frame ⟨n - 0x090, by omega⟩)
  else if n = 0x0B0 then some .frameLen
  else if n = 0x0C0 then some .accBox
  else if n = 0x0C1 then some .accCount
  else if n = 0x0C2 then some .errstat
  else if n = 0x0C3 then some .config
  else if h : 0x100 ≤ n ∧ n < 0x180 then some (.layout ⟨(n - 0x100) / 64, by omega⟩ ⟨(n - 0x100) % 64, by omega⟩)
  else none

/-- The address of a register (R61). -/
def Reg.addr : Reg → BitVec 9
  | .field k i => BitVec.ofNat 9 (0x000 + 64 * k.val + i.val)
  | .word k => BitVec.ofNat 9 (0x080 + k.val)
  | .frame j => BitVec.ofNat 9 (0x090 + j.val)
  | .frameLen => 0x0B0
  | .accBox => 0x0C0
  | .accCount => 0x0C1
  | .errstat => 0x0C2
  | .config => 0x0C3
  | .layout k i => BitVec.ofNat 9 (0x100 + 64 * k.val + i.val)

/-- The access column of R61: RW registers may be written, RO registers may not. -/
def Reg.writable : Reg → Bool
  | .field _ _ => true
  | .word _ => true
  | .frame _ => true
  | .frameLen => true
  | .accBox => false
  | .accCount => false
  | .errstat => false
  | .config => false
  | .layout _ _ => false

/-- The "bytes n" column of R61 (R68). -/
def Reg.bytes : Reg → Nat
  | .field _ _ => 8
  | .word _ => 8
  | .frame _ => 1
  | .frameLen => 1
  | .accBox => 8
  | .accCount => 1
  | .errstat => 1
  | .config => 8
  | .layout _ _ => 1

/-- REG_READ may name `a`: an address that R61 lists (R87). -/
def readableAddress (a : BitVec 9) : Bool := (regAt a).isSome

/-- REG_WRITE may name `a`: a register that R61 marks RW (R87). -/
def writableAddress (a : BitVec 9) : Bool := (regAt a).any Reg.writable

end Sys2Proof.Machine
end

