-- ==== Sys2Proof/Syntax.lean ====
section
/-! DEFINITION. The commands of R84, one constructor per row of spec/opcode_table.json. -/

namespace Sys2Proof

/-- The eleven commands of R84 with the operand fields of R81 each one uses.
`w` is the width `W`, `sgn` the bit `S`, `k` the word select `K` (0 = word 1, 1 = word 2), `a` the register address `A`. -/
inductive Instr where
  | nop                                   -- R200
  | accClear                              -- R112
  | accPush (w : BitVec 7)                -- R113
  | accPop (w : BitVec 7) (sgn : Bool)    -- R114
  | packWord (k : Fin 2)                  -- R146
  | unpackWord (k : Fin 2)                -- R160
  | frameWrap                             -- R181
  | frameCheck                            -- R182
  | regRead (a : BitVec 9)                -- R201
  | regWrite (a : BitVec 9)               -- R202
  | errClear                              -- R203
deriving DecidableEq, Repr

end Sys2Proof
end

