-- ==== Sys2Proof/WellFormed.lean ====
section
/-! DEFINITION. Which commands a command word can spell: the address checks of R87. -/

namespace Sys2Proof

open Sys2Proof.Machine (readableAddress writableAddress)

/-- The validity of a command beyond its fields' widths (R87, R89).
Widths `W` from 65 to 127 are well formed: they are semantic errors of the command, not encoding errors (R82). -/
def Instr.wellFormed : Instr → Bool
  | .nop => true
  | .accClear => true
  | .accPush _ => true
  | .accPop _ _ => true
  | .packWord _ => true
  | .unpackWord _ => true
  | .frameWrap => true
  | .frameCheck => true
  | .regRead a => readableAddress a
  | .regWrite a => writableAddress a
  | .errClear => true

end Sys2Proof
end

