-- ==== Sys2Proof/Decode.lean ====
section
/-! DEFINITION. The command decoder of R89 over the opcode map of R84, and the encoder. -/

namespace Sys2Proof

open Sys2Proof.Machine (readableAddress writableAddress)

/-- Why a command word is illegal. All of them execute as `raise IllegalCommand` (R89); the name is for the reader. -/
inductive DecodeError where
  /-- OP is 0xB to 0xF (R86). -/
  | reservedOpcode
  /-- The RSV field is not 0 (R85). -/
  | nonzeroReserved
  /-- A field the command does not use is not 0 (R85). -/
  | unusedField
  /-- REG_READ or REG_WRITE of a reserved address (R87). -/
  | reservedAddress
  /-- REG_WRITE of a read-only register (R87). -/
  | readOnlyRegister
deriving DecidableEq, Repr

/-- The mnemonics of R84, as opcodes. -/
inductive Op where
  | nop | accClear | accPush | accPop | packWord | unpackWord | frameWrap | frameCheck | regRead | regWrite | errClear
deriving DecidableEq, Repr

/-- A row of R84: `mask` has a 1 at every bit that must equal `pattern`. -/
structure OpRow where
  op : Op
  pattern : CmdWord
  mask : CmdWord
deriving DecidableEq, Repr

/-- The opcode map of R84. -/
def opcodeMap : List OpRow :=
  [⟨.nop,        0x00000000, 0xFFFFFFFF⟩,
   ⟨.accClear,   0x00000001, 0xFFFFFFFF⟩,
   ⟨.accPush,    0x00000002, 0xFFFFF80F⟩,
   ⟨.accPop,     0x00000003, 0xFFFFF00F⟩,
   ⟨.packWord,   0x00000004, 0xFFFFEFFF⟩,
   ⟨.unpackWord, 0x00000005, 0xFFFFEFFF⟩,
   ⟨.frameWrap,  0x00000006, 0xFFFFFFFF⟩,
   ⟨.frameCheck, 0x00000007, 0xFFFFFFFF⟩,
   ⟨.regRead,    0x00000008, 0xFFC01FFF⟩,
   ⟨.regWrite,   0x00000009, 0xFFC01FFF⟩,
   ⟨.errClear,   0x0000000A, 0xFFFFFFFF⟩]

/-- A row selects a word when `(CMD & mask) = match` (R84). -/
def OpRow.selects (r : OpRow) (cmd : CmdWord) : Bool := (cmd &&& r.mask) == r.pattern

/-- The OP field, `CMD[3:0]` (R81). -/
def fieldOP (cmd : CmdWord) : BitVec 4 := cmd.extractLsb' 0 4

/-- The W field, `CMD[10:4]` (R81, R82). -/
def fieldW (cmd : CmdWord) : BitVec 7 := cmd.extractLsb' 4 7

/-- The S field, `CMD[11]` (R81, R82). -/
def fieldS (cmd : CmdWord) : Bool := cmd.getLsbD 11

/-- The K field, `CMD[12]` (R81, R82): 0 selects word 1, 1 selects word 2. -/
def fieldK (cmd : CmdWord) : Fin 2 := if cmd.getLsbD 12 then 1 else 0

/-- The A field, `CMD[21:13]` (R81, R82). -/
def fieldA (cmd : CmdWord) : BitVec 9 := cmd.extractLsb' 13 9

/-- The RSV field, `CMD[31:22]` (R81). -/
def fieldRSV (cmd : CmdWord) : BitVec 10 := cmd.extractLsb' 22 10

/-- The command of a selected row with its operands, after the address checks of R87. -/
def operandsOf (op : Op) (cmd : CmdWord) : Except DecodeError Instr :=
  match op with
  | .nop => .ok .nop
  | .accClear => .ok .accClear
  | .accPush => .ok (.accPush (fieldW cmd))
  | .accPop => .ok (.accPop (fieldW cmd) (fieldS cmd))
  | .packWord => .ok (.packWord (fieldK cmd))
  | .unpackWord => .ok (.unpackWord (fieldK cmd))
  | .frameWrap => .ok .frameWrap
  | .frameCheck => .ok .frameCheck
  | .regRead => if readableAddress (fieldA cmd) then .ok (.regRead (fieldA cmd)) else .error .reservedAddress
  | .regWrite =>
    if writableAddress (fieldA cmd) then .ok (.regWrite (fieldA cmd))
    else if readableAddress (fieldA cmd) then .error .readOnlyRegister
    else .error .reservedAddress
  | .errClear => .ok .errClear

/-- Which rule a word that no row selects breaks (R85, R86); when several apply, the first is named. -/
def illegalReason (cmd : CmdWord) : DecodeError :=
  if 0xB ≤ (fieldOP cmd).toNat then .reservedOpcode
  else if fieldRSV cmd ≠ 0 then .nonzeroReserved
  else .unusedField

/-- The decoder of R89, total on every 32-bit word. -/
def decode (cmd : CmdWord) : Except DecodeError Instr :=
  match opcodeMap.find? (fun r => r.selects cmd) with
  | some r => operandsOf r.op cmd
  | none => .error (illegalReason cmd)

/-- The W field in its place (R81). -/
def placeW (w : BitVec 7) : CmdWord := w.setWidth 32 <<< 4

/-- The S field in its place (R81). -/
def placeS (sgn : Bool) : CmdWord := (BitVec.ofBool sgn).setWidth 32 <<< 11

/-- The K field in its place (R81). -/
def placeK (k : Fin 2) : CmdWord := BitVec.ofNat 32 k.val <<< 12

/-- The A field in its place (R81). -/
def placeA (a : BitVec 9) : CmdWord := a.setWidth 32 <<< 13

/-- The command word of a command (R81, R84). -/
def encode : Instr → CmdWord
  | .nop => 0x0
  | .accClear => 0x1
  | .accPush w => 0x2 ||| placeW w
  | .accPop w sgn => 0x3 ||| placeW w ||| placeS sgn
  | .packWord k => 0x4 ||| placeK k
  | .unpackWord k => 0x5 ||| placeK k
  | .frameWrap => 0x6
  | .frameCheck => 0x7
  | .regRead a => 0x8 ||| placeA a
  | .regWrite a => 0x9 ||| placeA a
  | .errClear => 0xA

/-- The 32-bit command word whose low `nbits` bits are `w` and whose other bits are 0. -/
def wordOfTable (nbits w : Nat) : CmdWord := BitVec.ofNat 32 (w % 2 ^ nbits)

/-- The command the decoder reads from a word of the opcode table; no command is longer than 32 bits (R80, R90). -/
def decodeTableWord (nbits w : Nat) : Option Instr :=
  if nbits ≤ 32 then (decode (wordOfTable nbits w)).toOption else none

end Sys2Proof
end

