-- ==== Sys2Proof/Machine/Bits.lean ====
section
/-! DEFINITION. The bit primitives of R10 to R15 on 64-bit values. Shifts are Lean's own: by 64 places or more they give 0 (R12). -/

namespace Sys2Proof.Machine

/-- `mask(w)` of R11: bits [w-1:0] are 1, the others 0. -/
def mask (w : Nat) : Word64 := BitVec.ofNat 64 (2 ^ w - 1)

/-- `v[hi:lo]` of R10, right-justified in 64 bits; 0 when hi < lo. -/
def slice (v : Word64) (hi lo : Nat) : Word64 := (v >>> lo) &&& mask (hi + 1 - lo)

/-- `zext_64` of R14 for the w-bit value in the low bits of `v`. -/
def zext64 (w : Nat) (v : Word64) : Word64 := v &&& mask w

/-- `sext_64` of R14 for the w-bit value in the low bits of `v`. -/
def sext64 (w : Nat) (v : Word64) : Word64 :=
  if w = 0 then 0
  else if v.getLsbD (w - 1) then zext64 w v ||| ~~~ mask w
  else zext64 w v

/-- The extension a signedness selects (R14, R111). -/
def extend64 (sgn : Bool) (w : Nat) (v : Word64) : Word64 := if sgn then sext64 w v else zext64 w v

end Sys2Proof.Machine
end

