-- ==== Sys2Proof/Machine/Params.lean ====
section
/-! DEFINITION. Layouts, their construction check, and the fixed parameters of R8. -/

namespace Sys2Proof.Machine

/-- One field entry of a layout: its width and whether it is signed (R140). Names are documentation only. -/
structure FieldSpec where
  width : Nat
  signed : Bool
deriving DecidableEq, Repr

/-- A layout: the field entries of one word in declared order (R140). -/
abbrev Layout := List FieldSpec

/-- The width sum `s_k` of a layout (R140). -/
def layoutSum (l : Layout) : Nat := (List.map FieldSpec.width l).sum

/-- The field count `c_k` of a layout (R140). -/
def layoutCount (l : Layout) : Nat := List.length l

/-- `P_i` of R145: the sum of the widths of the fields after field i. -/
def fieldPos (l : Layout) (i : Nat) : Nat := layoutSum (List.drop (i + 1) l)

/-- Why a layout fails construction (R143). These are not response codes (R222). -/
inductive ConstructionFailure where
  /-- An entry width outside 1..64. -/
  | invalidWidth
  /-- A width sum above 64. -/
  | fieldOverflow
deriving DecidableEq, Repr

/-- The construction check of R143; the width check comes first (D13). `none` when the layout passes. -/
def layoutFailure (l : Layout) : Option ConstructionFailure :=
  if l.any (fun f => f.width < 1 || 64 < f.width) then some .invalidWidth
  else if 64 < layoutSum l then some .fieldOverflow
  else none

/-- A layout that passed the construction check: only such a layout has an instance (R143, R253). -/
structure ValidLayout where
  entries : Layout := []
  valid : layoutFailure entries = none := by decide
deriving DecidableEq, Repr, Inhabited

/-- `LAYOUT[0]`, the word-1 layout of R141: flight_state, error_flags, accel_x, accel_y, accel_z, gyro_x, gyro_y, gyro_z. -/
def layoutW1 : Layout :=
  [⟨6, false⟩, ⟨6, false⟩, ⟨6, true⟩, ⟨6, true⟩, ⟨9, true⟩, ⟨10, true⟩, ⟨10, true⟩, ⟨11, true⟩]

/-- The widths of the source's reference word-2 layout, which sums to 75 (R144). -/
def referenceW2Widths : List Nat := [12, 9, 9, 9, 12, 8, 8, 8]

/-- `SYNC_START` (R8). -/
def syncStart : Byte := 0x5E

/-- `SYNC_END` (R8). -/
def syncEnd : Byte := 0xD5

/-- `FRAME_BYTES` (R8). -/
def frameBytes : BitVec 8 := 18

end Sys2Proof.Machine
end

