-- ==== Sys2Proof/Config.lean ====
section
/-! DEFINITION. What an instance fixes and the spec leaves open (R9).
`LATENCY`, the other open parameter, is an argument of the clocked model (Machine/Port.lean; log 8). -/

namespace Sys2Proof

/-- `LAYOUT_W2` of the instance that `State.reset` describes (R9, R142): any layout that passes R143, and nothing more is known of it.
DESIGN CHOICE (log 4): safe, no statement can rest on a particular layout. -/
opaque Config.layoutW2 : Machine.ValidLayout

end Sys2Proof
end

