-- ==== Sys2Proof/Machine/State.lean ====
section
/-! DEFINITION. The architectural state of R30, the host's inputs, the outcomes' reasons, and reset (R48). -/

namespace Sys2Proof.Machine

/-- An accumulator value `(box, n)` (R31, R32): the n significant bits stand right-justified in `box`, the oldest at bit n-1. -/
structure Accumulator where
  box : Word64
  n : BitVec 7
deriving DecidableEq, Repr

/-- The cleared accumulator `(0, 0)` (R47, R112). -/
def Accumulator.empty : Accumulator := ⟨0, 0⟩

/-- One bank of field registers `FIELD[k][0..63]` (R34). -/
abbrev Bank := Vector Word64 64

/-- The frame buffer `FRAME[0..17]` (R36). -/
abbrev Frame := Vector Byte 18

/-- A command as the host presents it: the pair `(CMD, DIN)` (R80). -/
structure Command where
  cmd : CmdWord
  din : Word64
deriving DecidableEq, Repr

/-- What the host does next at the core's ports: present a command (R80), or assert and release `rst` (R250). -/
inductive HostEvent where
  | command (c : Command)
  | reset
deriving DecidableEq, Repr

/-- The state: the tuple of R30, the instance's word-2 layout (R49), and the host's inputs (R80). -/
structure State where
  /-- `ACC` (R31, R32). -/
  acc : Accumulator
  /-- `FIELD[k][i]` (R34). -/
  banks : Vector Bank 2
  /-- `WORD[k]` (R35). -/
  words : Vector Word64 2
  /-- `FRAME[j]` (R36). -/
  frame : Frame
  /-- `FRAME_LEN` (R37). -/
  frameLen : BitVec 8
  /-- `ERRSTAT`: bits FO, IW, BS, BL, IC from bit 0 up (R38). -/
  errstat : BitVec 5
  /-- `DOUT` (R39). -/
  dout : Word64
  /-- `RESP` (R40). -/
  resp : BitVec 4
  /-- `LAYOUT[1]`, fixed at construction and never written (R49, R142; log 4). -/
  layoutW2 : ValidLayout
  /-- The operand on the `DIN` port during the current command (R80; an input, log 3). -/
  din : Word64
  /-- What the host does next, in order (the model's own input list, log 1). -/
  pending : List HostEvent
deriving DecidableEq, Repr

/-- Reasons for the machine to stop: there are none. Nothing raises a fault: every accepted command has exactly one outcome, success or
one response code, and there is no stuck state (R226, R257; log 10). Safe: a run never ends. -/
inductive Fault where
deriving DecidableEq, Repr

/-- Reasons for the model to give no meaning. -/
inductive Refusal where
  /-- An instruction the model gives no meaning; raised by an arm of `exec` only, and no arm raises it. Safe: the run ends. -/
  | notModelled (mnemonic : String)
deriving DecidableEq, Repr

/-- The reset state of the instance whose word-2 layout is `l` (R48): every element is 0.
The inputs are no part of R48: nothing is pending and DIN is 0 (DESIGN CHOICE, logs 1 and 3). -/
def State.resetOf (l : ValidLayout) : State where
  acc := Accumulator.empty
  banks := Vector.replicate 2 (Vector.replicate 64 0)
  words := Vector.replicate 2 0
  frame := Vector.replicate 18 0
  frameLen := 0
  errstat := 0
  dout := 0
  resp := 0
  layoutW2 := l
  din := 0
  pending := []

/-- The machine right after reset (R48), for an instance of unknown word-2 layout (R9; log 4). -/
def State.reset : State := State.resetOf Config.layoutW2

end Sys2Proof.Machine
end

