-- ==== Sys2Proof/Machine/Flags.lean ====
section
/-! DEFINITION. The response codes of R220 and the sticky summary ERRSTAT of R38 and R236. -/

namespace Sys2Proof.Machine

/-- The failures a command can raise (R220). -/
inductive Err where
  | fieldOverflow
  | invalidWidth
  | badSync
  | badLength
  | illegalCommand
deriving DecidableEq, Repr

/-- The code OK (R220). -/
def respOk : BitVec 4 := 0

/-- The response code of a failure (R220). -/
def Err.code : Err → BitVec 4
  | .fieldOverflow => 1
  | .invalidWidth => 2
  | .badSync => 3
  | .badLength => 4
  | .illegalCommand => 5

/-- The ERRSTAT bit of a failure, `ERRSTAT[code - 1]` (R38, R236). -/
def Err.flag (e : Err) : BitVec 5 := 1#5 <<< (e.code.toNat - 1)

/-- ERRSTAT after a failure: its bit set, no bit cleared (R38, R236). -/
def logError (errstat : BitVec 5) (e : Err) : BitVec 5 := errstat ||| e.flag

end Sys2Proof.Machine
end

