-- ==== Sys2Proof/Machine/Operands.lean ====
section
/-! DEFINITION. Operands: the registers by name, the layouts, and the contents of the constant registers (R34 to R46). -/

namespace Sys2Proof.Machine

/-- The bank `FIELD[k]` (R34). -/
def State.bank (s : State) (k : Fin 2) : Bank := s.banks[k]

/-- `FIELD[k][i]` (R34). -/
def State.fieldReg (s : State) (k : Fin 2) (i : Fin 64) : Word64 := (s.bank k)[i]

/-- `WORD[k]` (R35). -/
def State.wordReg (s : State) (k : Fin 2) : Word64 := s.words[k]

/-- `FRAME[j]` (R36). -/
def State.frameByte (s : State) (j : Fin 18) : Byte := s.frame[j]

/-- `LAYOUT[k]` (R49, R141, R142). -/
def State.layout (s : State) (k : Fin 2) : Layout := if k = 0 then layoutW1 else s.layoutW2.entries

/-- Slot i of a field bank. Layouts have at most 64 entries (R143), so an index above 63 never arises (log 13). -/
def slot (b : Bank) (i : Nat) : Word64 := b[i]?.getD 0

/-- The index `1 + 8k + j` of payload byte j of word k in the frame (R63). -/
def payloadIndex (k : Fin 2) (j : Fin 8) : Fin 18 := ⟨1 + 8 * k.val + j.val, by omega⟩

/-- The byte positions 0..7 of a word in payload order, most significant first (R63). -/
def octets : List (Fin 8) := [0, 1, 2, 3, 4, 5, 6, 7]

/-- The `CONFIG` register (R45): SYNC_START, SYNC_END, S0, S1, C0, C1 from bit 0 up. -/
def configReg (l0 l1 : Layout) : Word64 :=
  (0#17 ++ BitVec.ofNat 7 (layoutCount l1) ++ 0#1 ++ BitVec.ofNat 7 (layoutCount l0) ++ 0#1 ++ BitVec.ofNat 7 (layoutSum l1) ++ 0#1
    ++ BitVec.ofNat 7 (layoutSum l0) ++ syncEnd ++ syncStart : BitVec 64)

/-- A layout-entry register `LAYOUTk_i` (R46): `{signed_i, width_i[6:0]}`, 0 when there is no field i. -/
def layoutEntry (l : Layout) (i : Nat) : BitVec 8 :=
  match l[i]? with
  | some f => BitVec.ofBool f.signed ++ BitVec.ofNat 7 f.width
  | none => 0

end Sys2Proof.Machine
end

