-- ==== Sys2Proof/Machine/Ops.lean ====
section
/-! DEFINITION. The shared operations: register updates, completing and failing a command (R18, R221), register access (R17), and the
accumulator primitives (R110, R111). -/

namespace Sys2Proof.Machine

/-- `ACC <- a`. -/
def State.setAcc (s : State) (a : Accumulator) : State := { s with acc := a }

/-- `FIELD[k] <- b`, a whole bank. -/
def State.setBank (s : State) (k : Fin 2) (b : Bank) : State := { s with banks := s.banks.set k b }

/-- `FIELD[k][i] <- v`. -/
def State.setField (s : State) (k : Fin 2) (i : Fin 64) (v : Word64) : State := s.setBank k ((s.bank k).set i v)

/-- `WORD[k] <- v`. -/
def State.setWord (s : State) (k : Fin 2) (v : Word64) : State := { s with words := s.words.set k v }

/-- `FRAME <- f`, the whole buffer. -/
def State.setFrame (s : State) (f : Frame) : State := { s with frame := f }

/-- `FRAME_LEN <- n`. -/
def State.setFrameLen (s : State) (n : BitVec 8) : State := { s with frameLen := n }

/-- `ERRSTAT <- e`. -/
def State.setErrstat (s : State) (e : BitVec 5) : State := { s with errstat := e }

/-- `DOUT <- v`. -/
def State.setDout (s : State) (v : Word64) : State := { s with dout := v }

/-- `RESP <- r`. -/
def State.setResp (s : State) (r : BitVec 4) : State := { s with resp := r }

/-- Failing a command, the core's one form of exception (R18, R221, R236): RESP gets the code, the ERRSTAT bit of the code is set, and
nothing else changes. There is no handler and no return (R226, R227). -/
def State.raise (s : State) (e : Err) : State := (s.setErrstat (logError s.errstat e)).setResp e.code

/-- How a command ends (R18): `respond OK` commits the writes it made; `raise E` discards them and fails from the state `s` before it. -/
def respond (s : State) (r : Except Err State) : Host.Outcome State Fault Refusal :=
  .next (match r with
    | .ok s' => s'.setResp respOk
    | .error e => s.raise e)

/-- `acc_push(a, v, w)` (R110). The sum n + w is exact; on success it is at most 64 and fits `ACC.n`. -/
def accPush (a : Accumulator) (v : Word64) (w : Nat) : Except Err Accumulator :=
  if a.n.toNat + w > 64 then .error .fieldOverflow
  else .ok ⟨(a.box <<< w) ||| (v &&& mask w), BitVec.ofNat 7 (a.n.toNat + w)⟩

/-- `acc_pop(a, w, s)` (R111): the accumulator left and the value popped. -/
def accPop (a : Accumulator) (w : Nat) (sgn : Bool) : Except Err (Accumulator × Word64) :=
  if w > 64 ∨ w > a.n.toNat then .error .invalidWidth
  else
    let r := (a.box >>> (a.n.toNat - w)) &&& mask w
    .ok (⟨a.box &&& mask (a.n.toNat - w), BitVec.ofNat 7 (a.n.toNat - w)⟩, extend64 sgn w r)

/-- `MemRead` (R17): the register zero-extended to 64 bits. -/
def memRead (s : State) : Reg → Word64
  | .field k i => s.fieldReg k i
  | .word k => s.wordReg k
  | .frame j => (s.frameByte j).setWidth 64
  | .frameLen => s.frameLen.setWidth 64
  | .accBox => s.acc.box
  | .accCount => s.acc.n.setWidth 64
  | .errstat => s.errstat.setWidth 64
  | .config => configReg (s.layout 0) (s.layout 1)
  | .layout k i => (layoutEntry (s.layout k) i.val).setWidth 64

/-- `MemWrite` (R17): the low 8n bits of `v` into the register.
REG_WRITE refuses the read-only registers before it gets here (R202); they keep their value. -/
def memWrite (s : State) (r : Reg) (v : Word64) : State :=
  match r with
  | .field k i => s.setField k i v
  | .word k => s.setWord k v
  | .frame j => s.setFrame (s.frame.set j (v.setWidth 8))
  | .frameLen => s.setFrameLen (v.setWidth 8)
  | .accBox => s
  | .accCount => s
  | .errstat => s
  | .config => s
  | .layout _ _ => s

end Sys2Proof.Machine
end

