-- ==== Sys2Proof/Machine/Accumulate.lean ====
section
/-! DEFINITION. The bitfield_accumulator commands ACC_CLEAR, ACC_PUSH, ACC_POP (40_accumulator.md). -/

namespace Sys2Proof.Machine

/-- ACC_CLEAR (R112). -/
def execAccClear (s : State) : Host.Outcome State Fault Refusal :=
  respond s (.ok (s.setAcc Accumulator.empty))

/-- ACC_PUSH W (R113): the low W bits of DIN. -/
def execAccPush (w : BitVec 7) (s : State) : Host.Outcome State Fault Refusal :=
  respond s do
    let a ← accPush s.acc s.din w.toNat
    return s.setAcc a

/-- ACC_POP W, S (R114): the oldest W bits into DOUT. -/
def execAccPop (w : BitVec 7) (sgn : Bool) (s : State) : Host.Outcome State Fault Refusal :=
  respond s do
    let (a, r) ← accPop s.acc w.toNat sgn
    return (s.setAcc a).setDout r

end Sys2Proof.Machine
end

