-- ==== Sys2Proof/Machine/Framer.lean ====
section
/-! DEFINITION. The sync_framer commands FRAME_WRAP and FRAME_CHECK (43_sync_framer.md). -/

namespace Sys2Proof.Machine

/-- The inner loop of R181: pop the bytes at positions `js` of word k into the frame. -/
def popBytes (k : Fin 2) : List (Fin 8) → Accumulator → Frame → Except Err Frame
  | [], _, f => .ok f
  | j :: js, a, f => do
    let (a, b) ← accPop a 8 false
    popBytes k js a (f.set (payloadIndex k j) (b.setWidth 8))

/-- Serialize word k, big-endian, into its payload bytes (R63, R181), in a fresh scratch accumulator (R47). -/
def serializeWord (k : Fin 2) (w : Word64) (f : Frame) : Except Err Frame := do
  let a ← accPush Accumulator.empty w 64
  popBytes k octets a f

/-- FRAME_WRAP (R181). No primitive fails (R222). -/
def execFrameWrap (s : State) : Host.Outcome State Fault Refusal :=
  respond s do
    let f := s.frame.set 0 syncStart
    let f ← serializeWord 0 (s.wordReg 0) f
    let f ← serializeWord 1 (s.wordReg 1) f
    return (s.setFrame (f.set 17 syncEnd)).setFrameLen frameBytes

/-- FRAME_CHECK (R182): the length before the markers (R225). -/
def execFrameCheck (s : State) : Host.Outcome State Fault Refusal :=
  respond s
    (if s.frameLen ≠ frameBytes then .error .badLength
    else if s.frameByte 0 ≠ syncStart ∨ s.frameByte 17 ≠ syncEnd then .error .badSync
    else .ok s)

end Sys2Proof.Machine
end

