-- ==== Sys2Proof/Machine/Packer.lean ====
section
/-! DEFINITION. The frame_packer command PACK_WORD (41_packer.md). -/

namespace Sys2Proof.Machine

/-- The pad of R145: 64 - s zero bits pushed first when the layout sums to s < 64. -/
def pushPad (l : Layout) (a : Accumulator) : Except Err Accumulator :=
  if layoutSum l < 64 then accPush a 0 (64 - layoutSum l) else .ok a

/-- The loop of R146: push `FIELD[K][i]`, `FIELD[K][i+1]`, ... at the widths of the layout's remaining entries. -/
def pushFields (b : Bank) : Layout → Nat → Accumulator → Except Err Accumulator
  | [], _, a => .ok a
  | f :: fs, i, a => do
    let a ← accPush a (slot b i) f.width
    pushFields b fs (i + 1) a

/-- The word R146 packs, in a fresh scratch accumulator (R47). -/
def packedWord (l : Layout) (b : Bank) : Except Err Word64 := do
  let a ← pushPad l Accumulator.empty
  let a ← pushFields b l 0 a
  return a.box

/-- PACK_WORD K (R146). No push fails: every instance's layouts are valid (R143, R222). -/
def execPackWord (k : Fin 2) (s : State) : Host.Outcome State Fault Refusal :=
  respond s do
    let w ← packedWord (s.layout k) (s.bank k)
    return s.setWord k w

end Sys2Proof.Machine
end

