-- ==== Sys2Proof/Machine/RegisterAccess.lean ====
section
/-! DEFINITION. Register access and control: NOP, REG_READ, REG_WRITE, ERR_CLEAR (44_register_access.md). -/

namespace Sys2Proof.Machine

/-- NOP (R200). -/
def execNop (s : State) : Host.Outcome State Fault Refusal :=
  respond s (.ok s)

/-- REG_READ A (R201): a reserved address raises IllegalCommand. -/
def execRegRead (a : BitVec 9) (s : State) : Host.Outcome State Fault Refusal :=
  respond s
    (match regAt a with
    | none => .error .illegalCommand
    | some r => .ok (s.setDout (memRead s r)))

/-- REG_WRITE A (R202): a reserved address or a read-only register raises IllegalCommand. -/
def execRegWrite (a : BitVec 9) (s : State) : Host.Outcome State Fault Refusal :=
  respond s
    (match regAt a with
    | none => .error .illegalCommand
    | some r => if r.writable then .ok (memWrite s r s.din) else .error .illegalCommand)

/-- ERR_CLEAR (R203). -/
def execErrClear (s : State) : Host.Outcome State Fault Refusal :=
  respond s (.ok (s.setErrstat 0))

end Sys2Proof.Machine
end

