-- ==== Sys2Proof/Machine/Unpacker.lean ====
section
/-! DEFINITION. The frame_unpacker command UNPACK_WORD (42_unpacker.md). -/

namespace Sys2Proof.Machine

/-- Big-endian byte assembly (R64, R118): push each byte at width 8. -/
def pushBytes : List Byte → Accumulator → Except Err Accumulator
  | [], a => .ok a
  | b :: bs, a => do
    let a ← accPush a (b.setWidth 64) 8
    pushBytes bs a

/-- Skip the pad, unchecked (R162). -/
def popPad (l : Layout) (a : Accumulator) : Except Err Accumulator :=
  if layoutSum l < 64 then do
    let (a, _) ← accPop a (64 - layoutSum l) false
    return a
  else .ok a

/-- The loop of R160: pop the layout's remaining entries into slots i, i+1, ... of the bank, extended by their signedness. -/
def popFields : Layout → Nat → Accumulator → Bank → Except Err Bank
  | [], _, _, b => .ok b
  | f :: fs, i, a, b => do
    let (a, v) ← accPop a f.width f.signed
    popFields fs (i + 1) a (b.setIfInBounds i v)

/-- The word and the bank R160 gives, in a fresh scratch accumulator (R47). -/
def unpackedWord (l : Layout) (bytes : List Byte) (b : Bank) : Except Err (Word64 × Bank) := do
  let a ← pushBytes bytes Accumulator.empty
  let rest ← popPad l a
  let b ← popFields l 0 rest b
  return (a.box, b)

/-- The payload bytes of word k, in order (R63). -/
def State.payload (s : State) (k : Fin 2) : List Byte := octets.map (fun j => s.frameByte (payloadIndex k j))

/-- UNPACK_WORD K (R160). The sync bytes and FRAME_LEN are not checked; no primitive fails (R222). -/
def execUnpackWord (k : Fin 2) (s : State) : Host.Outcome State Fault Refusal :=
  respond s do
    let (w, b) ← unpackedWord (s.layout k) (s.payload k) (s.bank k)
    return (s.setWord k w).setBank k b

end Sys2Proof.Machine
end

