-- ==== Sys2Proof/Machine/Dispatch.lean ====
section
/-! DEFINITION. One arm per command of R84, each a direct call of its meaning. -/

namespace Sys2Proof.Machine

def exec (i : Instr) (s : State) : Host.Outcome State Fault Refusal :=
  match i with
  | .nop => Sys2Proof.Machine.execNop s
  | .accClear => Sys2Proof.Machine.execAccClear s
  | .accPush w => Sys2Proof.Machine.execAccPush w s
  | .accPop w sgn => Sys2Proof.Machine.execAccPop w sgn s
  | .packWord k => Sys2Proof.Machine.execPackWord k s
  | .unpackWord k => Sys2Proof.Machine.execUnpackWord k s
  | .frameWrap => Sys2Proof.Machine.execFrameWrap s
  | .frameCheck => Sys2Proof.Machine.execFrameCheck s
  | .regRead a => Sys2Proof.Machine.execRegRead a s
  | .regWrite a => Sys2Proof.Machine.execRegWrite a s
  | .errClear => Sys2Proof.Machine.execErrClear s

end Sys2Proof.Machine
end

