-- ==== Sys2Proof/Machine/Fetch.lean ====
section
/-! DEFINITION. What the core does with the host's next event: a command word (R80, R89), a reset (R250), or nothing (R234). -/

namespace Sys2Proof.Machine

/-- Nothing is presented: the core is idle and holds all state (R234). -/
def State.idle (s : State) : State := s

/-- Reset: every element of R48 takes its reset value, the layouts stay (R49, R250). The inputs are the host's: DIN keeps what is
driven, and the later events stand (log 6). -/
def State.takeReset (s : State) (rest : List HostEvent) : State :=
  { State.resetOf s.layoutW2 with din := s.din, pending := rest }

/-- The core accepts a command: its operand is on DIN, and the host's later events stand (R80). -/
def State.accept (s : State) (c : Command) (rest : List HostEvent) : State :=
  { s with din := c.din, pending := rest }

/-- An Illegal decode result executes as `raise IllegalCommand`, whatever makes the word illegal (R89). -/
def execIllegal (_ : DecodeError) (s : State) : Host.Outcome State Fault Refusal :=
  respond s (.error .illegalCommand)

/-- Decode a command word and execute it (R89). -/
def runWord (cmd : CmdWord) (s : State) : Host.Outcome State Fault Refusal :=
  match decode cmd with
  | .ok i => exec i s
  | .error e => execIllegal e s

/-- The host presents `c` before the events already pending. -/
def State.present (s : State) (c : Command) : State := { s with pending := .command c :: s.pending }

end Sys2Proof.Machine
end

