-- ==== Sys2Proof/Machine/Step.lean ====
section
/-! DEFINITION. One step: the host's next event, taken to completion (R42, R71). -/

namespace Sys2Proof.Machine

/-- One step of the core: the next command executes to completion, or the next reset is taken; with nothing pending the core is idle
(R71, R234, R250; logs 1 and 2). -/
def step (s : State) : Host.Outcome State Fault Refusal :=
  match s.pending with
  | [] => .next s.idle
  | .reset :: rest => .next (s.takeReset rest)
  | .command c :: rest => runWord c.cmd (s.accept c rest)

/-- `s` with a word of the opcode table presented as the host's next command; DIN is what the port holds (log 1). -/
def State.withFetchWord (s : State) (nbits w : Nat) : State :=
  s.present ⟨wordOfTable nbits w, s.din⟩

end Sys2Proof.Machine
end

