-- ==== Sys2Proof/Machine/Transaction.lean ====
section
/-! DEFINITION. One whole command transaction as a function of the state (R80, R257). -/

namespace Sys2Proof.Machine

/-- The state after the host issues `c` and the core completes it (R80). `step` always answers a next state (R257); the other two
outcomes leave the state as it is. -/
def issue (c : Command) (s : State) : State :=
  match step (s.present c) with
  | .next t => t
  | .fault _ => s
  | .refused _ => s

end Sys2Proof.Machine
end

