-- ==== Sys2Proof/Machine/Asm.lean ====
section
/-! DEFINITION. The assembler lines of R91 and the pseudo-instructions of R92, as the host's programs. -/

namespace Sys2Proof.Machine

/-- The `<A>` operand of an assembler line: a number or a register name (R91). -/
inductive AsmAddress where
  | number (a : BitVec 9)
  | name (r : Reg)
deriving DecidableEq, Repr

/-- An assembler line (R91). `v` is the DIN operand as written, possibly a negative number. -/
inductive AsmLine where
  | nop
  | accClear
  | accPush (w : BitVec 7) (v : Int)
  | accPopU (w : BitVec 7)
  | accPopS (w : BitVec 7)
  | pack (k : Fin 2)
  | unpack (k : Fin 2)
  | frameWrap
  | frameCheck
  | regRd (a : AsmAddress)
  | regWr (a : AsmAddress) (v : Int)
  | errClear
deriving DecidableEq, Repr

/-- The address an `<A>` operand gives (R61, R91). -/
def AsmAddress.address : AsmAddress → BitVec 9
  | .number a => a
  | .name r => r.addr

/-- The command of an assembler line (R91). -/
def AsmLine.instr : AsmLine → Instr
  | .nop => .nop
  | .accClear => .accClear
  | .accPush w _ => .accPush w
  | .accPopU w => .accPop w false
  | .accPopS w => .accPop w true
  | .pack k => .packWord k
  | .unpack k => .unpackWord k
  | .frameWrap => .frameWrap
  | .frameCheck => .frameCheck
  | .regRd a => .regRead a.address
  | .regWr a _ => .regWrite a.address
  | .errClear => .errClear

/-- The DIN operand of an assembler line: a negative number stands for its 64-bit two's-complement pattern (R91).
Lines without one give 0; their commands ignore DIN (R83). -/
def AsmLine.operand : AsmLine → Word64
  | .nop => 0
  | .accClear => 0
  | .accPush _ v => BitVec.ofInt 64 v
  | .accPopU _ => 0
  | .accPopS _ => 0
  | .pack _ => 0
  | .unpack _ => 0
  | .frameWrap => 0
  | .frameCheck => 0
  | .regRd _ => 0
  | .regWr _ v => BitVec.ofInt 64 v
  | .errClear => 0

/-- The transaction an assembler line stands for: its command word and its DIN operand (R91). -/
def AsmLine.command (l : AsmLine) : Command := ⟨encode l.instr, l.operand⟩

/-- The register names of R61. -/
def Reg.name : Reg → String
  | .field k i => "FIELD" ++ toString k.val ++ "_" ++ toString i.val
  | .word k => "WORD" ++ toString k.val
  | .frame j => "FRAME_" ++ toString j.val
  | .frameLen => "FRAME_LEN"
  | .accBox => "ACC_BOX"
  | .accCount => "ACC_COUNT"
  | .errstat => "ERRSTAT"
  | .config => "CONFIG"
  | .layout k i => "LAYOUT" ++ toString k.val ++ "_" ++ toString i.val

/-- An `<A>` operand as text (R91); numbers in decimal (log 17). -/
def AsmAddress.text : AsmAddress → String
  | .number a => toString a.toNat
  | .name r => r.name

/-- An assembler line as text, in the syntax of R91; numbers in decimal (log 17). -/
def AsmLine.text : AsmLine → String
  | .nop => "nop"
  | .accClear => "acc.clear"
  | .accPush w v => "acc.push " ++ toString w.toNat ++ ", din=" ++ toString v
  | .accPopU w => "acc.pop.u " ++ toString w.toNat
  | .accPopS w => "acc.pop.s " ++ toString w.toNat
  | .pack k => "pack " ++ toString k.val
  | .unpack k => "unpack " ++ toString k.val
  | .frameWrap => "frame.wrap"
  | .frameCheck => "frame.check"
  | .regRd a => "reg.rd " ++ a.text
  | .regWr a v => "reg.wr " ++ a.text ++ ", din=" ++ toString v
  | .errClear => "err.clear"

/-- A line of source text: a command, a comment, both or neither (R91). A comment has no effect. -/
structure SourceLine where
  line : Option AsmLine
  comment : Option String
deriving DecidableEq, Repr

/-- A source line as text: comments start with `;` (R91). -/
def SourceLine.text (l : SourceLine) : String :=
  (match l.line with | some a => a.text | none => "") ++ (match l.comment with | some c => " ; " ++ c | none => "")

/-- The commands of a source text, in order (R91). -/
def sourceCommands (ls : List SourceLine) : List Command := ls.filterMap (fun l => l.line.map AsmLine.command)

/-- The pseudo-instructions of R92. -/
inductive Pseudo where
  | accPushb (v : Int)
  | accPopb
  | accLoad (v : Int)
  | frameEncode
  | frameDecode
  | fieldsWr (k : Fin 2) (vs : List Int)
deriving DecidableEq, Repr

/-- A line the host issues; with `onlyIfOk`, only when the response before it was OK (R92). -/
structure HostStep where
  line : AsmLine
  onlyIfOk : Bool
deriving DecidableEq, Repr

/-- The expansion of a pseudo-instruction (R92). `frame.decode` unpacks only if the check responded OK; its second unpack follows the
first, which always responds OK (log 18). -/
def Pseudo.expand : Pseudo → List HostStep
  | .accPushb v => [⟨.accPush 8 v, false⟩]
  | .accPopb => [⟨.accPopU 8, false⟩]
  | .accLoad v => [⟨.accClear, false⟩, ⟨.accPush 64 v, false⟩]
  | .frameEncode => [⟨.pack 0, false⟩, ⟨.pack 1, false⟩, ⟨.frameWrap, false⟩]
  | .frameDecode => [⟨.frameCheck, false⟩, ⟨.unpack 0, true⟩, ⟨.unpack 1, true⟩]
  | .fieldsWr k vs => ((List.finRange 64).zip vs).map (fun p => ⟨.regWr (.name (.field k p.1)) p.2, false⟩)

/-- One line of a host program: issued, or skipped when it waits for OK and the response is an error (R92). -/
def HostStep.perform (h : HostStep) (s : State) : State :=
  if h.onlyIfOk && s.resp != respOk then s else issue h.line.command s

/-- The state after the host runs its lines in order (R92; not atomic). -/
def runHost : List HostStep → State → State
  | [], s => s
  | h :: hs, s => runHost hs (h.perform s)

end Sys2Proof.Machine
end

