-- ==== Sys2Proof/Machine/Construct.lean ====
section
/-! DEFINITION. Construction of an instance from its parameter LAYOUT_W2 (R143, R253). -/

namespace Sys2Proof.Machine

/-- Construct an instance with the word-2 layout `w2` and reset it (R253): the reset state, or why no instance exists (R143, R222).
`LAYOUT[0]` is fixed and passes the check (R141). -/
def construct (w2 : Layout) : Except ConstructionFailure State :=
  match h : layoutFailure w2 with
  | some e => .error e
  | none => .ok (State.resetOf ⟨w2, h⟩)

end Sys2Proof.Machine
end

