-- ==== Sys2Proof/Machine/Port.lean ====
section
/-! DEFINITION. The ports of R80 by clock cycles: the handshake, the latency of a command (R256), and reset (R250, R251). -/

namespace Sys2Proof.Machine

/-- The input ports in one clock cycle (R80). -/
structure PortIn where
  rst : Bool
  cmdValid : Bool
  cmd : CmdWord
  din : Word64
deriving DecidableEq, Repr

/-- The output ports in one clock cycle (R80). -/
structure PortOut where
  cmdReady : Bool
  rspValid : Bool
  resp : BitVec 4
  dout : Word64
deriving DecidableEq, Repr

/-- The core between clock edges: its state, the command in flight with the cycles it takes beyond the next one, and `rsp_valid`. -/
structure Clocked where
  core : State
  inFlight : Option (Command × Nat)
  rspValid : Bool
deriving DecidableEq, Repr

/-- The output ports in a cycle (R80). `cmd_ready` is 0 while a command is in flight, and 1 again in the cycle of its `rsp_valid`
(DEDUCED, log 7). While `rst` is 1 both handshake outputs are 0 (R250). -/
def Clocked.outputs (c : Clocked) (inp : PortIn) : PortOut where
  cmdReady := !inp.rst && c.inFlight.isNone
  rspValid := !inp.rst && c.rspValid
  resp := c.core.resp
  dout := c.core.dout

/-- A command completes: its whole effect happens, and `rsp_valid` is 1 in the next cycle (R80). -/
def Clocked.complete (c : Clocked) (command : Command) : Clocked where
  core := issue command c.core
  inFlight := none
  rspValid := true

/-- Accept a command that takes `extra + 1` cycles from acceptance to `rsp_valid` (R256). -/
def Clocked.acceptCommand (c : Clocked) (extra : Nat) (command : Command) : Clocked :=
  match extra with
  | 0 => c.complete command
  | left + 1 => { c with inFlight := some (command, left), rspValid := false }

/-- One clock edge. `extra + 1` is the latency of a command accepted in this cycle: an argument, any value, for every command anew
(R9, R256; log 8). `rst` abandons a command in flight and puts every state element at its reset value (R250, R251). -/
def Clocked.tick (extra : Nat) (inp : PortIn) (c : Clocked) : Clocked :=
  if inp.rst then { core := c.core.takeReset c.core.pending, inFlight := none, rspValid := false }
  else
    match c.inFlight with
    | some (command, 0) => c.complete command
    | some (command, left + 1) => { c with inFlight := some (command, left), rspValid := false }
    | none =>
      if inp.cmdValid then c.acceptCommand extra ⟨inp.cmd, inp.din⟩
      else { c with rspValid := false }

/-- The core after a list of clock cycles, each with the latency of a command accepted in it. -/
def Clocked.run : List (Nat × PortIn) → Clocked → Clocked
  | [], c => c
  | (extra, inp) :: rest, c => Clocked.run rest (c.tick extra inp)

end Sys2Proof.Machine
end

