-- ==== Sys2Proof/Safety.lean ====
section
/-! DEFINITION. What claims about the core are stated in: the state invariant, safe runs, value ranges and the bitstream view. -/

namespace Sys2Proof.Machine

/-- An accumulator within its invariant: at most 64 significant bits (R32), and none of box above them (R33). -/
abbrev Accumulator.ok (a : Accumulator) : Prop := a.n.toNat ≤ 64 ∧ a.box.toNat < 2 ^ a.n.toNat

/-- The invariant of every reachable state: the accumulator's (R32, R33), and a response code that R220 lists. -/
abbrev State.Inv (s : State) : Prop := s.acc.ok ∧ s.resp.toNat ≤ 5

/-- A safe run: its first k steps meet no fault and no refusal, and end in the invariant. -/
def SafeRun (k : Nat) (s : State) : Prop := ∃ t, Host.Core.run Sys2Proof.core k s = .next t ∧ t.Inv

/-- `v` is in the field's declared range (R13), extended to 64 bits by its signedness (R161). -/
def FieldSpec.inRange (f : FieldSpec) (v : Word64) : Prop :=
  if f.signed then -(2 : Int) ^ (f.width - 1) ≤ v.toInt ∧ v.toInt ≤ (2 : Int) ^ (f.width - 1) - 1
  else v.toNat < 2 ^ f.width

/-- Every field register of word k that the layout uses holds a value in its field's range (R161). -/
def State.fieldsInRange (s : State) (k : Fin 2) : Prop :=
  ∀ (i : Fin 64) (f : FieldSpec), (s.layout k)[i.val]? = some f → f.inRange (s.fieldReg k i)

/-- The low w bits of a value as a bitstream, most significant first. -/
def bitsOf (v : Word64) (w : Nat) : List Bool := (List.range w).map (fun i => v.getLsbD (w - 1 - i))

/-- The significant bits of an accumulator as a queue, the oldest first (R31). -/
def Accumulator.stream (a : Accumulator) : List Bool := bitsOf a.box a.n.toNat

/-- The `RESP` and `ERRSTAT` effect of a failure with response code c, and nothing else (R221, R236). -/
def State.failed (s : State) (c : Nat) : State :=
  { s with resp := BitVec.ofNat 4 c, errstat := s.errstat ||| BitVec.ofNat 5 (2 ^ (c - 1)) }

/-- The reserved rows of R61, by address. -/
abbrev reservedAddress (a : BitVec 9) : Prop :=
  (0x082 ≤ a.toNat ∧ a.toNat ≤ 0x08F) ∨ (0x0A2 ≤ a.toNat ∧ a.toNat ≤ 0x0AF) ∨ (0x0B1 ≤ a.toNat ∧ a.toNat ≤ 0x0BF) ∨
  (0x0C4 ≤ a.toNat ∧ a.toNat ≤ 0x0FF) ∨ 0x180 ≤ a.toNat

/-- The RO rows of R61, by address. -/
abbrev readOnlyAddress (a : BitVec 9) : Prop :=
  (0x0C0 ≤ a.toNat ∧ a.toNat ≤ 0x0C3) ∨ (0x100 ≤ a.toNat ∧ a.toNat ≤ 0x17F)

/-- The 1-byte rows of R61 that may be written, FRAME_j and FRAME_LEN, by address (R68). -/
abbrev oneByteAddress (a : BitVec 9) : Prop := (0x090 ≤ a.toNat ∧ a.toNat ≤ 0x0A1) ∨ a.toNat = 0x0B0

/-- Every element of R48 at its reset value. -/
def State.atReset (s : State) : Prop :=
  s.acc.box = 0 ∧ s.acc.n = 0 ∧ (∀ k i, s.fieldReg k i = 0) ∧ (∀ k, s.wordReg k = 0) ∧ (∀ j, s.frameByte j = 0) ∧
  s.frameLen = 0 ∧ s.errstat = 0 ∧ s.dout = 0 ∧ s.resp = 0

/-- Successive unsigned pops of the given widths: what is left, and the values in order (R118). -/
def popSeq : List Nat → Accumulator → Except Err (Accumulator × List Word64)
  | [], a => .ok (a, [])
  | w :: ws, a => do
    let (a, v) ← accPop a w false
    let (a, vs) ← popSeq ws a
    return (a, v :: vs)

/-- Successive pushes of (value, width) pairs (R118). -/
def pushSeq : List (Word64 × Nat) → Accumulator → Except Err Accumulator
  | [], a => .ok a
  | (v, w) :: ps, a => do
    let a ← accPush a v w
    pushSeq ps a

/-- The host issues a command of R84 with an operand: the state after it completes. -/
def issueInstr (i : Instr) (din : Word64) (s : State) : State := issue ⟨encode i, din⟩ s

end Sys2Proof.Machine
end

