-- ==== Sys2Proof/Certificates/Slice0/Obligations.lean ====
section
/-! DEFINITION. The statements for the provers, each over the numbered rules of spec/. -/

open Sys2Proof Sys2Proof.Machine

/-! ### Encoding -/

/-- Command words of 95_test_vectors.md decode to the commands they stand for, and words of its section 2.6 are illegal. -/
def Obligations.SampleWordsDecodeAsTheTestVectorsSay : Prop :=
  decode 0x00000000 = .ok .nop ∧ decode 0x00000001 = .ok .accClear ∧ decode 0x00000042 = .ok (.accPush 4) ∧
  decode 0x00000823 = .ok (.accPop 2 true) ∧ decode 0x00000413 = .ok (.accPop 65 false) ∧ decode 0x00001004 = .ok (.packWord 1) ∧
  decode 0x00000005 = .ok (.unpackWord 0) ∧ decode 0x00000006 = .ok .frameWrap ∧ decode 0x00000007 = .ok .frameCheck ∧
  decode 0x00100008 = .ok (.regRead 0x080) ∧ decode 0x00142009 = .ok (.regWrite 0x0A1) ∧ decode 0x0000000A = .ok .errClear ∧
  decode 0x0000000B = .error .reservedOpcode ∧ decode 0x00400000 = .error .nonzeroReserved ∧
  decode 0x00000842 = .error .unusedField ∧ decode 0x00104008 = .error .reservedAddress ∧ decode 0x00180009 = .error .readOnlyRegister

/-- Decoding the encoding of a well-formed command gives it back, whatever its operands. -/
def Obligations.DecodeOfEncodeIsTheCommand : Prop :=
  ∀ i : Instr, i.wellFormed = true → decode (encode i) = .ok i

/-- R88: every word is either exactly one command or illegal: a word that decodes is the encoding of the well-formed command it gives. -/
def Obligations.EveryLegalWordSpellsExactlyOneCommand : Prop :=
  ∀ (cmd : CmdWord) (i : Instr), decode cmd = .ok i → i.wellFormed = true ∧ encode i = cmd

/-- R84, R89: a word decodes to a command exactly when the command's row of the opcode map selects it and its address is valid, with
the operands of the fields of R81. -/
def Obligations.DecoderFollowsTheOpcodeMap : Prop :=
  ∀ cmd : CmdWord,
    (decode cmd = .ok .nop ↔ cmd &&& 0xFFFFFFFF = 0x0) ∧
    (decode cmd = .ok .accClear ↔ cmd &&& 0xFFFFFFFF = 0x1) ∧
    (∀ w, decode cmd = .ok (.accPush w) ↔ cmd &&& 0xFFFFF80F = 0x2 ∧ w = cmd.extractLsb' 4 7) ∧
    (∀ w sgn, decode cmd = .ok (.accPop w sgn) ↔
      cmd &&& 0xFFFFF00F = 0x3 ∧ w = cmd.extractLsb' 4 7 ∧ sgn = cmd.getLsbD 11) ∧
    (∀ k : Fin 2, decode cmd = .ok (.packWord k) ↔ cmd &&& 0xFFFFEFFF = 0x4 ∧ k.val = (cmd.extractLsb' 12 1).toNat) ∧
    (∀ k : Fin 2, decode cmd = .ok (.unpackWord k) ↔ cmd &&& 0xFFFFEFFF = 0x5 ∧ k.val = (cmd.extractLsb' 12 1).toNat) ∧
    (decode cmd = .ok .frameWrap ↔ cmd &&& 0xFFFFFFFF = 0x6) ∧
    (decode cmd = .ok .frameCheck ↔ cmd &&& 0xFFFFFFFF = 0x7) ∧
    (∀ a, decode cmd = .ok (.regRead a) ↔ cmd &&& 0xFFC01FFF = 0x8 ∧ a = cmd.extractLsb' 13 9 ∧ ¬ reservedAddress a) ∧
    (∀ a, decode cmd = .ok (.regWrite a) ↔
      cmd &&& 0xFFC01FFF = 0x9 ∧ a = cmd.extractLsb' 13 9 ∧ ¬ reservedAddress a ∧ ¬ readOnlyAddress a) ∧
    (decode cmd = .ok .errClear ↔ cmd &&& 0xFFFFFFFF = 0xA)

/-- R85, R86, R87: a reserved opcode, a nonzero RSV, a nonzero unused field, a reserved address, or a write to a read-only register:
the command raises IllegalCommand and changes nothing else. -/
def Obligations.IllegalWordsRaiseIllegalCommandOnly : Prop :=
  ∀ (s : State) (c : Command) (rest : List HostEvent), s.pending = .command c :: rest →
    let op := (c.cmd.extractLsb' 0 4).toNat
    let a := c.cmd.extractLsb' 13 9
    (0xB ≤ op ∨
      c.cmd.extractLsb' 22 10 ≠ 0 ∨
      (op ∈ [0x0, 0x1, 0x6, 0x7, 0xA] ∧ c.cmd.extractLsb' 4 18 ≠ 0) ∨
      (op = 0x2 ∧ c.cmd.extractLsb' 11 11 ≠ 0) ∨
      (op = 0x3 ∧ c.cmd.extractLsb' 12 10 ≠ 0) ∨
      (op ∈ [0x4, 0x5] ∧ (c.cmd.extractLsb' 4 8 ≠ 0 ∨ c.cmd.extractLsb' 13 9 ≠ 0)) ∨
      (op ∈ [0x8, 0x9] ∧ c.cmd.extractLsb' 4 9 ≠ 0) ∨
      (op ∈ [0x8, 0x9] ∧ reservedAddress a) ∨
      (op = 0x9 ∧ readOnlyAddress a)) →
    step s = .next (({ s with din := c.din, pending := rest } : State).failed 5)

/-- The address map names each register by exactly one address, and leaves exactly the reserved addresses without one. -/
def Obligations.AddressesNameRegistersOneToOne : Prop :=
  (∀ r : Reg, regAt r.addr = some r) ∧ (∀ (a : BitVec 9) (r : Reg), regAt a = some r → r.addr = a) ∧
  (∀ a : BitVec 9, regAt a = none ↔ reservedAddress a)

/-! ### The step -/

/-- What a step does with the host's next event: a legal word is executed, an illegal one raises IllegalCommand, and without an event
the core holds all state (the input list is the model's own, log 1). -/
def Obligations.StepExecutesTheDecodedCommand : Prop :=
  (∀ (s : State) (c : Command) (rest : List HostEvent) (i : Instr), s.pending = .command c :: rest → decode c.cmd = .ok i →
    step s = exec i { s with din := c.din, pending := rest }) ∧
  (∀ (s : State) (c : Command) (rest : List HostEvent) (e : DecodeError), s.pending = .command c :: rest → decode c.cmd = .error e →
    step s = .next (({ s with din := c.din, pending := rest } : State).failed 5)) ∧
  (∀ s : State, s.pending = [] → step s = .next s)

/-- R257: every accepted command completes, with exactly one outcome: a step always answers a next state. -/
def Obligations.EveryStepCompletes : Prop :=
  ∀ s : State, ∃ t, step s = .next t

/-- R221, R226: a presented command responds OK, or fails with one code c in 1..5 and no effect but RESP and the ERRSTAT bit c - 1. -/
def Obligations.FailuresArePreciseAndLeaveNoOtherTrace : Prop :=
  ∀ (s : State) (c : Command) (rest : List HostEvent), s.pending = .command c :: rest →
    ∃ t, step s = .next t ∧
      (t.resp = 0 ∨ ∃ code, 1 ≤ code ∧ code ≤ 5 ∧ t = ({ s with din := c.din, pending := rest } : State).failed code)

/-- R236: a command that fails with code c sets ERRSTAT bit c - 1 and keeps the other bits; a successful command other than ERR_CLEAR
leaves ERRSTAT unchanged. -/
def Obligations.ErrstatRecordsEveryFailureAndOnlyFailures : Prop :=
  ∀ (s t : State) (c : Command) (rest : List HostEvent), s.pending = .command c :: rest → step s = .next t →
    (t.resp = 0 → decode c.cmd ≠ .ok .errClear → t.errstat = s.errstat) ∧
    (t.resp ≠ 0 → ∀ b, b < 5 → t.errstat.getLsbD b = (s.errstat.getLsbD b || decide (b + 1 = t.resp.toNat)))

/-- Which response codes each command can give once decoded. -/
def Obligations.EachCommandRaisesOnlyItsOwnCodes : Prop :=
  ∀ (i : Instr) (s : State), ∃ t, exec i s = .next t ∧
    t.resp ∈ match i with
      | .accPush _ => ([0, 1] : List (BitVec 4))
      | .accPop _ _ => [0, 2]
      | .frameCheck => [0, 3, 4]
      | .regRead _ => [0, 5]
      | .regWrite _ => [0, 5]
      | .nop => [0]
      | .accClear => [0]
      | .packWord _ => [0]
      | .unpackWord _ => [0]
      | .frameWrap => [0]
      | .errClear => [0]

/-- R71: the state after a sequence of commands is the composition of the rules of each command in issue order. -/
def Obligations.CommandSequencesComposeInIssueOrder : Prop :=
  ∀ (cs : List Command) (s : State),
    Host.Core.run Sys2Proof.core cs.length { s with pending := cs.map HostEvent.command ++ s.pending } =
      .next (cs.foldl (fun t c => issue c t) s)

/-! ### Reset, construction, constants -/

/-- R48: reset sets every state element to its reset value: after a reset event in any state, and at `State.reset`. -/
def Obligations.ResetPutsEveryElementAtItsResetValue : Prop :=
  State.reset.atReset ∧
  ∀ (s : State) (rest : List HostEvent), s.pending = .reset :: rest → ∃ t, step s = .next t ∧ t.atReset

/-- R49: the layouts and the sync values never change: no command writes them and reset does not affect them. -/
def Obligations.ConstructionConstantsNeverChange : Prop :=
  ∀ s t : State, step s = .next t → (∀ k, t.layout k = s.layout k) ∧ memRead t .config = memRead s .config

/-- R143: construction fails with InvalidWidth when an entry's width is outside 1..64, otherwise with FieldOverflow when the sum is above
64, and otherwise gives an instance with that layout; every layout of an instance passes the check. -/
def Obligations.ConstructionAcceptsExactlyTheValidLayouts : Prop :=
  (∀ l : Layout, (∃ f ∈ l, f.width < 1 ∨ 64 < f.width) → construct l = .error .invalidWidth) ∧
  (∀ l : Layout, (∀ f ∈ l, 1 ≤ f.width ∧ f.width ≤ 64) → 64 < (l.map FieldSpec.width).sum → construct l = .error .fieldOverflow) ∧
  (∀ l : Layout, (∀ f ∈ l, 1 ≤ f.width ∧ f.width ≤ 64) → (l.map FieldSpec.width).sum ≤ 64 →
    ∃ s, construct l = .ok s ∧ s.layout 1 = l ∧ s.atReset) ∧
  (∀ (s : State) (k : Fin 2), (∀ f ∈ s.layout k, 1 ≤ f.width ∧ f.width ≤ 64) ∧ ((s.layout k).map FieldSpec.width).sum ≤ 64 ∧
    (s.layout k).length ≤ 64)

/-- R144: the source's reference word-2 layout, with any signedness, fails construction with FieldOverflow. -/
def Obligations.ReferenceWordTwoLayoutIsRefused : Prop :=
  ∀ l : Layout, l.map FieldSpec.width = [12, 9, 9, 9, 12, 8, 8, 8] → construct l = .error .fieldOverflow

/-- The invariant of R32, R33 and R220 holds right after reset, whatever the word-2 layout. -/
def Obligations.InvariantAtReset : Prop :=
  State.reset.Inv ∧ ∀ (l : Layout) (s : State), construct l = .ok s → s.Inv

/-- Every step keeps the invariant: at most 64 significant bits, none of box above them, and a response code that R220 lists. -/
def Obligations.EveryStepKeepsTheInvariant : Prop :=
  ∀ s t : State, s.Inv → step s = .next t → t.Inv

/-- From every state within the invariant, runs of every length meet no fault and no refusal and stay within it. -/
def Obligations.EveryRunFromTheInvariantIsSafe : Prop :=
  ∀ (k : Nat) (s : State), s.Inv → SafeRun k s

/-! ### bitfield_accumulator -/

/-- R14: `zext_64` and `sext_64` of the w-bit value in the low bits of v. -/
def Obligations.ExtensionKeepsTheLowBitsAndFillsTheRest : Prop :=
  ∀ (w : Nat) (v : Word64) (i : Nat), w ≤ 64 → i < 64 →
    (zext64 w v).getLsbD i = (if i < w then v.getLsbD i else false) ∧
    (sext64 w v).getLsbD i = (if i < w then v.getLsbD i else if w = 0 then false else v.getLsbD (w - 1))

/-- R11: mask(w) has ones exactly at the bits [w-1:0]; mask(0) and mask(64) are none and all. -/
def Obligations.MaskSelectsExactlyTheLowBits : Prop :=
  (∀ w i, w ≤ 64 → i < 64 → (mask w).getLsbD i = decide (i < w)) ∧ mask 0 = 0 ∧ mask 64 = 0xFFFFFFFFFFFFFFFF

/-- R112: ACC_CLEAR, its word and its whole effect. -/
def Obligations.AccClearEmptiesTheAccumulator : Prop :=
  (∀ cmd : CmdWord, decode cmd = .ok .accClear ↔ cmd = 0x1) ∧
  ∀ s : State, exec .accClear s = .next { s with acc := ⟨0, 0⟩, resp := 0 }

/-- R113: ACC_PUSH, its words, when it fails, and its whole effect bit by bit. -/
def Obligations.AccPushAppendsTheLowBitsOfDin : Prop :=
  (∀ cmd : CmdWord, cmd &&& 0xFFFFF80F = 0x2 → decode cmd = .ok (.accPush (cmd.extractLsb' 4 7))) ∧
  ∀ (w : BitVec 7) (s : State),
    (64 < s.acc.n.toNat + w.toNat → exec (.accPush w) s = .next (s.failed 1)) ∧
    (s.acc.n.toNat + w.toNat ≤ 64 → ∃ box : Word64,
      exec (.accPush w) s = .next { s with acc := ⟨box, BitVec.ofNat 7 (s.acc.n.toNat + w.toNat)⟩, resp := 0 } ∧
      ∀ i, i < 64 → box.getLsbD i = if i < w.toNat then s.din.getLsbD i else s.acc.box.getLsbD (i - w.toNat))

/-- R114: ACC_POP, its words, when it fails, and its whole effect bit by bit. -/
def Obligations.AccPopReturnsTheOldestBits : Prop :=
  (∀ cmd : CmdWord, cmd &&& 0xFFFFF00F = 0x3 → decode cmd = .ok (.accPop (cmd.extractLsb' 4 7) (cmd.getLsbD 11))) ∧
  ∀ (w : BitVec 7) (sgn : Bool) (s : State),
    (64 < w.toNat ∨ s.acc.n.toNat < w.toNat → exec (.accPop w sgn) s = .next (s.failed 2)) ∧
    (w.toNat ≤ 64 → w.toNat ≤ s.acc.n.toNat → ∃ box result : Word64,
      exec (.accPop w sgn) s =
        .next { s with acc := ⟨box, BitVec.ofNat 7 (s.acc.n.toNat - w.toNat)⟩, dout := result, resp := 0 } ∧
      (∀ i, i < 64 → box.getLsbD i = (decide (i < s.acc.n.toNat - w.toNat) && s.acc.box.getLsbD i)) ∧
      ∀ i, i < 64 → result.getLsbD i =
        if i < w.toNat then s.acc.box.getLsbD (s.acc.n.toNat - w.toNat + i)
        else (sgn && decide (0 < w.toNat) && s.acc.box.getLsbD (s.acc.n.toNat - 1)))

/-- R115: the primitives keep box[63:n] = 0, and ACC_CLEAR and reset give (0, 0). -/
def Obligations.PrimitivesKeepTheBitsAboveTheCountZero : Prop :=
  (∀ (a a' : Accumulator) (v : Word64) (w : Nat), a.box.toNat < 2 ^ a.n.toNat → accPush a v w = .ok a' →
    a'.box.toNat < 2 ^ a'.n.toNat) ∧
  (∀ (a a' : Accumulator) (w : Nat) (sgn : Bool) (r : Word64), a.box.toNat < 2 ^ a.n.toNat → accPop a w sgn = .ok (a', r) →
    a'.box.toNat < 2 ^ a'.n.toNat) ∧
  (∀ s : State, ∃ t, exec .accClear s = .next t ∧ t.acc.box = 0 ∧ t.acc.n = 0) ∧
  (State.reset.acc.box = 0 ∧ State.reset.acc.n = 0)

/-- The accumulator is a first-in first-out queue of bits: a push appends the low W bits of DIN, most significant first, a pop takes W
bits from the front into the low bits of DOUT. -/
def Obligations.AccumulatorIsAFirstInFirstOutBitQueue : Prop :=
  ∀ (s : State) (w : BitVec 7), s.acc.ok →
    (s.acc.n.toNat + w.toNat ≤ 64 → ∃ t, exec (.accPush w) s = .next t ∧ t.acc.ok ∧
      t.acc.stream = s.acc.stream ++ bitsOf s.din w.toNat) ∧
    (∀ sgn, w.toNat ≤ s.acc.n.toNat → ∃ t, exec (.accPop w sgn) s = .next t ∧ t.acc.ok ∧
      s.acc.stream = bitsOf t.dout w.toNat ++ t.acc.stream ∧ t.dout = extend64 sgn w.toNat t.dout)

/-- The FIFO law of R116: from any accumulator, push A and B, pop what was there, then pop A and B: each comes back masked to its width
and extended by its pop's S. -/
def Obligations.PushedFieldsPopInPushOrder : Prop :=
  ∀ (s : State) (a b : BitVec 7) (va vb d : Word64) (s0 sa sb : Bool), s.acc.ok → s.acc.n.toNat + a.toNat + b.toNat ≤ 64 →
    let s1 := issueInstr (.accPush a) va s
    let s2 := issueInstr (.accPush b) vb s1
    let s3 := issueInstr (.accPop s.acc.n s0) d s2
    let s4 := issueInstr (.accPop a sa) d s3
    let s5 := issueInstr (.accPop b sb) d s4
    s1.resp = 0 ∧ s2.resp = 0 ∧ s3.resp = 0 ∧ s4.resp = 0 ∧ s5.resp = 0 ∧
    s4.dout = extend64 sa a.toNat va ∧ s5.dout = extend64 sb b.toNat vb ∧ s5.acc = Accumulator.empty

/-- R117: pushing a value of the W-bit two's-complement range onto a cleared accumulator and popping it signed gives it back, for every W
in 1..64. -/
def Obligations.SignedValuesRoundTripAtEveryWidth : Prop :=
  ∀ (s : State) (w : BitVec 7) (x : Int) (d : Word64), s.acc = Accumulator.empty → 1 ≤ w.toNat → w.toNat ≤ 64 →
    -(2 : Int) ^ (w.toNat - 1) ≤ x → x ≤ (2 : Int) ^ (w.toNat - 1) - 1 →
    let s1 := issueInstr (.accPush w) (BitVec.ofInt 64 x) s
    let s2 := issueInstr (.accPop w true) d s1
    s2.resp = 0 ∧ s2.dout = BitVec.ofInt 64 x ∧ s2.dout.toInt = x

/-- R118: eight pops of 8 bits from a full accumulator return its bytes, most significant first, and empty it; eight pushes of 8 bits
onto a cleared one assemble them in that order. -/
def Obligations.BytePopsAndPushesAreBigEndian : Prop :=
  (∀ box : Word64, popSeq [8, 8, 8, 8, 8, 8, 8, 8] ⟨box, 64⟩ =
    .ok (⟨0, 0⟩, (List.range 8).map (fun j => (box.extractLsb' (56 - 8 * j) 8).setWidth 64))) ∧
  (∀ b0 b1 b2 b3 b4 b5 b6 b7 : Byte,
    pushSeq ([b0, b1, b2, b3, b4, b5, b6, b7].map (fun b => (b.setWidth 64, 8))) ⟨0, 0⟩ =
      .ok ⟨(b0 ++ b1 ++ b2 ++ b3 ++ b4 ++ b5 ++ b6 ++ b7 : BitVec 64), 64⟩)

/-- The pop of a full accumulator returns its top w bits, extended. -/
def Obligations.FullAccumulatorPopsItsTopBits : Prop :=
  ∀ (box : Word64) (w : Nat) (sgn : Bool), w ≤ 64 →
    ∃ a, accPop ⟨box, 64⟩ w sgn = .ok (a, extend64 sgn w (box >>> (64 - w)))

/-- R120: a push uses the low w bits of the value only, so a value outside the w-bit range is stored modulo 2^w and pops, signed, as the
w-bit value congruent to it. -/
def Obligations.OutOfRangeValuesAreTruncatedModuloTheWidth : Prop :=
  (∀ (a : Accumulator) (v : Word64) (w : Nat), accPush a v w = accPush a (v &&& mask w) w) ∧
  (∀ (v : Word64) (w : Nat), 1 ≤ w → w ≤ 64 → ∃ a r, accPush Accumulator.empty v w = .ok a ∧
    accPop a w true = .ok (Accumulator.empty, r) ∧ r.toInt = Int.bmod v.toInt (2 ^ w))

/-! ### frame_packer, frame_unpacker, sync_framer -/

/-- R145, R146: PACK_WORD, its words and its whole effect: field i of the layout stands at P_i, the pad is 0, nothing else changes. -/
def Obligations.PackWordPlacesEveryFieldAtItsPosition : Prop :=
  (∀ cmd : CmdWord, cmd &&& 0xFFFFEFFF = 0x4 → decode cmd = .ok (.packWord (if cmd.getLsbD 12 then 1 else 0))) ∧
  ∀ (k : Fin 2) (s : State), ∃ v : Word64,
    exec (.packWord k) s = .next { s with words := s.words.set k v, resp := 0 } ∧
    (∀ (i : Fin 64) (f : FieldSpec), (s.layout k)[i.val]? = some f → ∀ j, j < f.width →
      v.getLsbD ((((s.layout k).drop (i.val + 1)).map FieldSpec.width).sum + j) = (s.fieldReg k i).getLsbD j) ∧
    (∀ b, ((s.layout k).map FieldSpec.width).sum ≤ b → v.getLsbD b = false)

/-- R147: the packer ignores each field's signedness: layouts of the same widths pack every bank to the same word. -/
def Obligations.PackerIgnoresSignedness : Prop :=
  ∀ (l m : Layout) (b : Bank), l.map FieldSpec.width = m.map FieldSpec.width → packedWord l b = packedWord m b

/-- R160, R162: UNPACK_WORD, its words and its whole effect: the word is the payload's big-endian bytes; each field register of the layout
gets its bits, extended by its signedness; the pad is not checked; nothing else changes. -/
def Obligations.UnpackWordRecoversWordAndFields : Prop :=
  (∀ cmd : CmdWord, cmd &&& 0xFFFFEFFF = 0x5 → decode cmd = .ok (.unpackWord (if cmd.getLsbD 12 then 1 else 0))) ∧
  ∀ (k : Fin 2) (s : State), ∃ (v : Word64) (bank : Bank),
    exec (.unpackWord k) s = .next { s with words := s.words.set k v, banks := s.banks.set k bank, resp := 0 } ∧
    (∀ (j : Fin 18) (m : Nat), m < 8 → j.val = 1 + 8 * k.val + m → v.extractLsb' (56 - 8 * m) 8 = s.frameByte j) ∧
    (∀ (i : Fin 64) (f : FieldSpec), (s.layout k)[i.val]? = some f →
      bank[i] = extend64 f.signed f.width (v >>> (((s.layout k).drop (i.val + 1)).map FieldSpec.width).sum)) ∧
    (∀ i : Fin 64, (s.layout k)[i.val]? = none → bank[i] = s.fieldReg k i)

/-- R180, R181: FRAME_WRAP, its word and its whole effect: the frame's 18 bytes, FRAME_LEN = 18, nothing else changes. -/
def Obligations.FrameWrapBuildsTheWireFrame : Prop :=
  (∀ cmd : CmdWord, decode cmd = .ok .frameWrap ↔ cmd = 0x6) ∧
  ∀ s : State, ∃ f : Frame,
    exec .frameWrap s = .next { s with frame := f, frameLen := 18, resp := 0 } ∧
    f[(0 : Fin 18)] = 0x5E ∧ f[(17 : Fin 18)] = 0xD5 ∧
    ∀ (k : Fin 2) (j : Fin 18) (m : Nat), m < 8 → j.val = 1 + 8 * k.val + m → f[j] = (s.wordReg k).extractLsb' (56 - 8 * m) 8

/-- R182: FRAME_CHECK, its word and its whole effect: BadLength when FRAME_LEN is not 18, else BadSync when a marker differs, else OK. -/
def Obligations.FrameCheckTestsLengthThenMarkers : Prop :=
  (∀ cmd : CmdWord, decode cmd = .ok .frameCheck ↔ cmd = 0x7) ∧
  ∀ s : State,
    (s.frameLen ≠ 18 → exec .frameCheck s = .next (s.failed 4)) ∧
    (s.frameLen = 18 → s.frameByte 0 ≠ 0x5E ∨ s.frameByte 17 ≠ 0xD5 → exec .frameCheck s = .next (s.failed 3)) ∧
    (s.frameLen = 18 → s.frameByte 0 = 0x5E → s.frameByte 17 = 0xD5 → exec .frameCheck s = .next { s with resp := 0 })

/-- R184: after a FRAME_CHECK that raised an error the core is as before it except RESP and ERRSTAT, and accepts the next command. -/
def Obligations.MalformedFramesAreRecoverable : Prop :=
  ∀ s t : State, exec .frameCheck s = .next t → t.resp ≠ 0 →
    t = { s with resp := t.resp, errstat := t.errstat } ∧
    ∀ (i : Instr) (d : Word64), i.wellFormed = true → step (t.present ⟨encode i, d⟩) = exec i { t with din := d }

/-- R183: after FRAME_WRAP, FRAME_CHECK responds OK, and UNPACK_WORD k sets WORD[k] to the value it held before FRAME_WRAP. -/
def Obligations.WrappedFramesCheckAndUnpackToTheirWords : Prop :=
  ∀ (s : State) (k : Fin 2) (d : Word64),
    let t := issueInstr .frameWrap d s
    (issueInstr .frameCheck d t).resp = 0 ∧ (issueInstr (.unpackWord k) d t).wordReg k = s.wordReg k

/-- R161: PACK_WORD k, FRAME_WRAP, UNPACK_WORD k leave every field register of word k that is in range as it was; one out of range comes
back as its low bits, extended. -/
def Obligations.PackWrapUnpackRestoresTheFields : Prop :=
  ∀ (s : State) (k : Fin 2) (d : Word64),
    let t := issueInstr (.unpackWord k) d (issueInstr .frameWrap d (issueInstr (.packWord k) d s))
    t.resp = 0 ∧
    (s.fieldsInRange k → ∀ i : Fin 64, t.fieldReg k i = s.fieldReg k i) ∧
    ∀ (i : Fin 64) (f : FieldSpec), (s.layout k)[i.val]? = some f → t.fieldReg k i = extend64 f.signed f.width (s.fieldReg k i)

/-- The source's round trip over the pseudo-instructions of R92: frame.encode then frame.decode ends OK and restores every field register
of both words that is in range. -/
def Obligations.EncodeThenDecodeRestoresTheSample : Prop :=
  ∀ s : State, s.fieldsInRange 0 → s.fieldsInRange 1 →
    let t := runHost (Pseudo.frameEncode.expand ++ Pseudo.frameDecode.expand) s
    t.resp = 0 ∧ t.errstat = s.errstat ∧ (∀ k i, t.fieldReg k i = s.fieldReg k i) ∧
    (∀ k, t.wordReg k = (runHost Pseudo.frameEncode.expand s).wordReg k)

/-- R148: after UNPACK_WORD 0 the field registers of word 1 are the stated bit fields of WORD[0], extended. -/
def Obligations.WordOneFieldsAreTheirBitFields : Prop :=
  ∀ s : State, ∃ t, exec (.unpackWord 0) s = .next t ∧
    t.fieldReg 0 0 = slice (t.wordReg 0) 63 58 ∧ t.fieldReg 0 1 = slice (t.wordReg 0) 57 52 ∧
    t.fieldReg 0 2 = sext64 6 (slice (t.wordReg 0) 51 46) ∧ t.fieldReg 0 3 = sext64 6 (slice (t.wordReg 0) 45 40) ∧
    t.fieldReg 0 4 = sext64 9 (slice (t.wordReg 0) 39 31) ∧ t.fieldReg 0 5 = sext64 10 (slice (t.wordReg 0) 30 21) ∧
    t.fieldReg 0 6 = sext64 10 (slice (t.wordReg 0) 20 11) ∧ t.fieldReg 0 7 = sext64 11 (slice (t.wordReg 0) 10 0)

/-! ### Register access and control -/

/-- R200: NOP, its word and its whole effect. -/
def Obligations.NopOnlyRespondsOk : Prop :=
  (∀ cmd : CmdWord, decode cmd = .ok .nop ↔ cmd = 0x0) ∧ ∀ s : State, exec .nop s = .next { s with resp := 0 }

/-- R203: ERR_CLEAR, its word and its whole effect; it is the only command that clears a bit of ERRSTAT. -/
def Obligations.ErrClearAloneClearsTheSummary : Prop :=
  (∀ cmd : CmdWord, decode cmd = .ok .errClear ↔ cmd = 0xA) ∧
  (∀ s : State, exec .errClear s = .next { s with errstat := 0, resp := 0 }) ∧
  (∀ (s t : State) (c : Command) (rest : List HostEvent), s.pending = .command c :: rest → decode c.cmd ≠ .ok .errClear →
    step s = .next t → ∀ b, s.errstat.getLsbD b = true → t.errstat.getLsbD b = true) ∧
  (∀ (s t : State) (rest : List HostEvent), s.pending = .reset :: rest → step s = .next t → t.errstat = 0)

/-- R45, R46, R201: REG_READ, its words, and for every address the register read, zero-extended; a reserved address raises
IllegalCommand. -/
def Obligations.RegReadReturnsTheAddressedRegister : Prop :=
  (∀ cmd : CmdWord, cmd &&& 0xFFC01FFF = 0x8 → ¬ reservedAddress (cmd.extractLsb' 13 9) →
    decode cmd = .ok (.regRead (cmd.extractLsb' 13 9))) ∧
  ∀ (s : State) (a : BitVec 9),
    (reservedAddress a → exec (.regRead a) s = .next (s.failed 5)) ∧
    (¬ reservedAddress a → ∃ v : Word64, exec (.regRead a) s = .next { s with dout := v, resp := 0 } ∧
      (∀ (k : Fin 2) (i : Fin 64), a.toNat = 64 * k.val + i.val → v = s.fieldReg k i) ∧
      (∀ k : Fin 2, a.toNat = 0x080 + k.val → v = s.wordReg k) ∧
      (∀ j : Fin 18, a.toNat = 0x090 + j.val → v.toNat = (s.frameByte j).toNat) ∧
      (a.toNat = 0x0B0 → v.toNat = s.frameLen.toNat) ∧
      (a.toNat = 0x0C0 → v = s.acc.box) ∧
      (a.toNat = 0x0C1 → v.toNat = s.acc.n.toNat) ∧
      (a.toNat = 0x0C2 → v.toNat = s.errstat.toNat) ∧
      (a.toNat = 0x0C3 → v.toNat = 0x5E + 0xD5 * 2 ^ 8 + ((s.layout 0).map FieldSpec.width).sum * 2 ^ 16
        + ((s.layout 1).map FieldSpec.width).sum * 2 ^ 24 + (s.layout 0).length * 2 ^ 32 + (s.layout 1).length * 2 ^ 40) ∧
      (∀ (k : Fin 2) (i : Fin 64), a.toNat = 0x100 + 64 * k.val + i.val →
        v.toNat = match (s.layout k)[i.val]? with
          | some f => f.width + (if f.signed then 128 else 0)
          | none => 0))

/-- R202: REG_WRITE, its words, and for every address the register written with the low 8n bits of DIN; a reserved address or a
read-only register raises IllegalCommand; nothing else changes. -/
def Obligations.RegWriteUpdatesTheAddressedRegister : Prop :=
  (∀ cmd : CmdWord, cmd &&& 0xFFC01FFF = 0x9 → ¬ reservedAddress (cmd.extractLsb' 13 9) → ¬ readOnlyAddress (cmd.extractLsb' 13 9) →
    decode cmd = .ok (.regWrite (cmd.extractLsb' 13 9))) ∧
  ∀ (s : State) (a : BitVec 9),
    (reservedAddress a ∨ readOnlyAddress a → exec (.regWrite a) s = .next (s.failed 5)) ∧
    (∀ (k : Fin 2) (i : Fin 64), a.toNat = 64 * k.val + i.val →
      exec (.regWrite a) s = .next { s with banks := s.banks.set k ((s.bank k).set i s.din), resp := 0 }) ∧
    (∀ k : Fin 2, a.toNat = 0x080 + k.val →
      exec (.regWrite a) s = .next { s with words := s.words.set k s.din, resp := 0 }) ∧
    (∀ j : Fin 18, a.toNat = 0x090 + j.val →
      exec (.regWrite a) s = .next { s with frame := s.frame.set j (s.din.setWidth 8), resp := 0 }) ∧
    (a.toNat = 0x0B0 → exec (.regWrite a) s = .next { s with frameLen := s.din.setWidth 8, resp := 0 })

/-- A register read after a write to its address gives the low 8n bits of DIN; a read of any other address gives what it gave before,
so no two registers overlap. -/
def Obligations.RegisterReadsSeeExactlyTheLastWrite : Prop :=
  ∀ (s : State) (a b : BitVec 9), ¬ reservedAddress a → ¬ readOnlyAddress a → ¬ reservedAddress b →
    ∃ t u v, exec (.regWrite a) s = .next t ∧ exec (.regRead b) t = .next u ∧ exec (.regRead b) s = .next v ∧
      u.dout = if b = a then (if oneByteAddress a then (s.din.setWidth 8).setWidth 64 else s.din) else v.dout

/-- Reading a register changes only DOUT and RESP, and reading it again gives the same result. -/
def Obligations.RegisterReadsAreRepeatable : Prop :=
  ∀ (s : State) (a : BitVec 9), ¬ reservedAddress a →
    ∃ t, exec (.regRead a) s = .next t ∧ t = { s with dout := t.dout, resp := 0 } ∧ exec (.regRead a) t = .next t

/-! ### Whole-machine rules -/

/-- DOUT changes only by a successful ACC_POP or a successful REG_READ. -/
def Obligations.OnlySuccessfulPopsAndReadsChangeDout : Prop :=
  ∀ (s t : State) (c : Command) (rest : List HostEvent), s.pending = .command c :: rest → step s = .next t → t.dout ≠ s.dout →
    t.resp = 0 ∧ ((∃ w sgn, decode c.cmd = .ok (.accPop w sgn)) ∨ ∃ a, decode c.cmd = .ok (.regRead a))

/-- The writers of each data register: ACC by the three accumulator commands, FIELD[k][i] by REG_WRITE of its address and by UNPACK_WORD k
for i < c_k, WORD[k] by PACK_WORD k, UNPACK_WORD k and REG_WRITE, FRAME and FRAME_LEN by FRAME_WRAP and REG_WRITE. -/
def Obligations.RegistersChangeOnlyByTheirOwnCommands : Prop :=
  ∀ (i : Instr) (s : State), ∃ t, exec i s = .next t ∧ t.din = s.din ∧ t.pending = s.pending ∧ t.layoutW2 = s.layoutW2 ∧
    (t.acc ≠ s.acc → i = .accClear ∨ (∃ w, i = .accPush w) ∨ ∃ w sgn, i = .accPop w sgn) ∧
    (∀ (k : Fin 2) (m : Fin 64), t.fieldReg k m ≠ s.fieldReg k m →
      i = .regWrite (BitVec.ofNat 9 (64 * k.val + m.val)) ∨ (i = .unpackWord k ∧ m.val < (s.layout k).length)) ∧
    (∀ k : Fin 2, t.wordReg k ≠ s.wordReg k →
      i = .packWord k ∨ i = .unpackWord k ∨ i = .regWrite (BitVec.ofNat 9 (0x080 + k.val))) ∧
    (∀ j : Fin 18, t.frameByte j ≠ s.frameByte j → i = .frameWrap ∨ i = .regWrite (BitVec.ofNat 9 (0x090 + j.val))) ∧
    (t.frameLen ≠ s.frameLen → i = .frameWrap ∨ i = .regWrite 0x0B0)

/-- Every command but ACC_PUSH and REG_WRITE ignores DIN, whatever its value. -/
def Obligations.OnlyPushAndRegWriteReadDin : Prop :=
  ∀ (i : Instr) (s : State) (d : Word64), (∀ w, i ≠ .accPush w) → (∀ a, i ≠ .regWrite a) →
    ∃ t, exec i s = .next t ∧ exec i { s with din := d } = .next { t with din := d }

/-- No command reads RESP, and every command writes it: the outcome does not depend on the response before. -/
def Obligations.NoCommandReadsTheResponse : Prop :=
  ∀ (i : Instr) (s : State) (r : BitVec 4), exec i { s with resp := r } = exec i s

/-- PACK_WORD, UNPACK_WORD, FRAME_WRAP and FRAME_CHECK neither read nor write ACC: their accumulators are scratch. -/
def Obligations.FrameCommandsNeitherReadNorWriteAcc : Prop :=
  ∀ (i : Instr) (s : State) (a : Accumulator), ((∃ k, i = .packWord k) ∨ (∃ k, i = .unpackWord k) ∨ i = .frameWrap ∨ i = .frameCheck) →
    ∃ t, exec i s = .next t ∧ t.acc = s.acc ∧ exec i { s with acc := a } = .next { t with acc := a }

/-! ### The host's programs and the ports -/

/-- The pseudo-instruction acc.load of R92 leaves exactly its operand in the accumulator, from every state. -/
def Obligations.AccLoadFillsTheAccumulator : Prop :=
  ∀ (s : State) (v : Int), ∃ d,
    runHost (Pseudo.accLoad v).expand s = { s with acc := ⟨BitVec.ofInt 64 v, 64⟩, resp := 0, din := d }

/-- The pseudo-instruction fields.wr of R92 writes the listed values into the slots of its bank in order, and no other field register. -/
def Obligations.FieldsWrFillsTheSlotsInOrder : Prop :=
  ∀ (s : State) (k : Fin 2) (vs : List Int), vs.length ≤ 64 →
    let t := runHost (Pseudo.fieldsWr k vs).expand s
    (∀ i : Fin 64, t.fieldReg k i = match vs[i.val]? with | some v => BitVec.ofInt 64 v | none => s.fieldReg k i) ∧
    (∀ (j : Fin 2) (i : Fin 64), j ≠ k → t.fieldReg j i = s.fieldReg j i)

/-- A command accepted at the ports takes effect as a whole after any latency of at least one cycle: until then cmd_ready and rsp_valid
are 0 and the state is as before; then rsp_valid is 1, the state is the one after the command, and cmd_ready is 1 again (log 7). -/
def Obligations.AcceptedCommandsCompleteAfterAnyLatency : Prop :=
  ∀ (c : Clocked) (extra : Nat) (inp : PortIn) (later : List (Nat × PortIn)),
    (c.outputs inp).cmdReady = true → inp.cmdValid = true → later.length = extra → (∀ p ∈ later, p.2.rst = false) →
    (∀ (m : Nat) (x : PortIn), m < extra →
      let mid := Clocked.run ((extra, inp) :: later.take m) c
      (mid.outputs x).cmdReady = false ∧ (mid.outputs x).rspValid = false ∧ mid.core = c.core) ∧
    let done := Clocked.run ((extra, inp) :: later) c
    done.core = issue ⟨inp.cmd, inp.din⟩ c.core ∧
    ∀ x : PortIn, x.rst = false → done.outputs x =
      { cmdReady := true, rspValid := true, resp := (issue ⟨inp.cmd, inp.din⟩ c.core).resp,
        dout := (issue ⟨inp.cmd, inp.din⟩ c.core).dout }

/-- R250, R251: while rst is 1 the core accepts no command and drives rsp_valid = 0; in the first cycle after it every state element holds
its reset value and the core accepts commands; a command in flight is abandoned, with no response and no write. -/
def Obligations.ResetAbandonsTheCommandInFlight : Prop :=
  ∀ (c : Clocked) (extra : Nat) (inp : PortIn), inp.rst = true →
    (c.outputs inp).cmdReady = false ∧ (c.outputs inp).rspValid = false ∧
    let after := c.tick extra inp
    after.core.atReset ∧ after.core.layoutW2 = c.core.layoutW2 ∧
    ∀ x : PortIn, x.rst = false → (after.outputs x).cmdReady = true ∧ (after.outputs x).rspValid = false

/-- With no command presented and none in flight the core is idle: cmd_ready is 1 and it holds all state. -/
def Obligations.IdleCyclesHoldAllState : Prop :=
  ∀ (c : Clocked) (extra : Nat) (inp : PortIn), c.inFlight = none → inp.rst = false → inp.cmdValid = false →
    (c.outputs inp).cmdReady = true ∧ (c.tick extra inp).core = c.core ∧ (c.tick extra inp).inFlight = none ∧
    (c.tick extra inp).rspValid = false
end

