-- ==== Sys2Proof/Laws/Bits.lean ====
section
/-! SUPPORT. The bit primitives, bit by bit and as numbers. -/

namespace Sys2Proof.Machine

@[simp] theorem getLsbD_mask (w i : Nat) : (mask w).getLsbD i = (decide (i < w) && decide (i < 64)) := by
  simp [mask, BitVec.getLsbD_ofNat, Nat.testBit_two_pow_sub_one, Bool.and_comm]

@[simp] theorem getElem_mask (w i : Nat) (h : i < 64) : (mask w)[i] = decide (i < w) := by
  rw [← BitVec.getLsbD_eq_getElem, getLsbD_mask]
  simp [h]

/-- Masking is reduction modulo 2^w. -/
theorem toNat_and_mask (v : Word64) {w : Nat} (h : w ≤ 64) : (v &&& mask w).toNat = v.toNat % 2 ^ w := by
  have hw : 2 ^ w ≤ 2 ^ 64 := Nat.pow_le_pow_right (by decide) h
  have hp : 0 < 2 ^ w := Nat.two_pow_pos w
  rw [mask, BitVec.toNat_and, BitVec.toNat_ofNat, Nat.mod_eq_of_lt (by omega), Nat.and_two_pow_sub_one_eq_mod]

@[simp] theorem mask_64 : mask 64 = BitVec.allOnes 64 := by decide

@[simp] theorem mask_zero : mask 0 = 0 := by decide

@[simp] theorem getLsbD_zext64 (w : Nat) (v : Word64) (i : Nat) : (zext64 w v).getLsbD i = (decide (i < w) && v.getLsbD i) := by
  by_cases h : i < 64
  · simp [zext64, h, Bool.and_comm]
  · simp [zext64, BitVec.getLsbD_of_ge v i (by omega)]

@[simp] theorem getElem_zext64 (w : Nat) (v : Word64) (i : Nat) (h : i < 64) : (zext64 w v)[i] = (decide (i < w) && v[i]) := by
  rw [← BitVec.getLsbD_eq_getElem, getLsbD_zext64, BitVec.getLsbD_eq_getElem]

/-- An extended value bit by bit (R14): the low w bits stand, the others are 0 or the sign bit w-1. -/
theorem getLsbD_extend64 (sgn : Bool) (w : Nat) (v : Word64) {i : Nat} (hi : i < 64) :
    (extend64 sgn w v).getLsbD i = if i < w then v.getLsbD i else (sgn && decide (0 < w) && v.getLsbD (w - 1)) := by
  unfold extend64 sext64
  cases sgn
  · by_cases h : i < w <;> simp [h]
  · rcases Nat.eq_zero_or_pos w with rfl | hw
    · simp
    · by_cases hs : v.getLsbD (w - 1)
      · by_cases h : i < w <;> simp [hs, h, hi, hw, Nat.ne_of_gt hw]
      · by_cases h : i < w <;> simp [hs, h, hw, Nat.ne_of_gt hw]

/-- Extension reads the low w bits only. -/
theorem extend64_congr {sgn : Bool} {w : Nat} {u v : Word64} (h : ∀ i, i < w → u.getLsbD i = v.getLsbD i) :
    extend64 sgn w u = extend64 sgn w v := by
  apply BitVec.eq_of_getLsbD_eq
  intro i hi
  rw [getLsbD_extend64 _ _ _ hi, getLsbD_extend64 _ _ _ hi]
  by_cases hw : i < w
  · simp [hw, h i hw]
  · rcases Nat.eq_zero_or_pos w with rfl | hp
    · simp
    · simp [hw, h (w - 1) (by omega)]

end Sys2Proof.Machine
end

