-- ==== Sys2Proof/Laws/Accumulate.lean ====
section
/-! SUPPORT. The accumulator primitives: when they succeed, and what they give bit by bit (R110, R111). -/

namespace Sys2Proof.Machine

@[simp] theorem except_ok_bind {ε α β : Type} (a : α) (f : α → Except ε β) : (Except.ok a >>= f) = f a := rfl

@[simp] theorem except_error_bind {ε α β : Type} (e : ε) (f : α → Except ε β) : (Except.error e >>= f) = Except.error e := rfl

/-- Everything a push can do (R110). -/
theorem accPush_cases (a : Accumulator) (v : Word64) (w : Nat) :
    (64 < a.n.toNat + w ∧ accPush a v w = .error .fieldOverflow) ∨
    (a.n.toNat + w ≤ 64 ∧ ∃ a', accPush a v w = .ok a' ∧ a'.n.toNat = a.n.toNat + w ∧
      ∀ i, a'.box.getLsbD i = if i < w then v.getLsbD i else decide (i < 64) && a.box.getLsbD (i - w)) := by
  unfold accPush
  by_cases h : a.n.toNat + w > 64
  · exact .inl ⟨h, by simp [h]⟩
  · refine .inr ⟨by omega, _, if_neg h, ?_, ?_⟩
    · simp only [BitVec.toNat_ofNat]
      omega
    · intro i
      by_cases hi : i < w
      · have : i < 64 := by omega
        simp [hi, this]
      · rw [BitVec.getLsbD_or, BitVec.getLsbD_and, getLsbD_mask, BitVec.getLsbD_shiftLeft]
        simp [hi]

/-- Everything a pop can do (R111). -/
theorem accPop_cases (a : Accumulator) (w : Nat) (sgn : Bool) :
    ((64 < w ∨ a.n.toNat < w) ∧ accPop a w sgn = .error .invalidWidth) ∨
    (w ≤ 64 ∧ w ≤ a.n.toNat ∧ ∃ a' r, accPop a w sgn = .ok (a', r) ∧ a'.n.toNat = a.n.toNat - w ∧
      (∀ i, a'.box.getLsbD i = (decide (i < a.n.toNat - w) && a.box.getLsbD i)) ∧
      r = extend64 sgn w (a.box >>> (a.n.toNat - w))) := by
  unfold accPop
  by_cases h : w > 64 ∨ w > a.n.toNat
  · exact .inl ⟨h, by simp [h]⟩
  · refine .inr ⟨by omega, by omega, _, _, if_neg h, ?_, ?_, ?_⟩
    · have := a.n.isLt
      simp only [BitVec.toNat_ofNat]
      omega
    · intro i
      by_cases hi : i < 64
      · simp [hi, Bool.and_comm]
      · simp [BitVec.getLsbD_of_ge a.box i (by omega)]
    · apply extend64_congr
      intro i hi
      have : i < 64 := by omega
      simp [hi, this]

/-- An accumulator is determined by its bits and its count. -/
theorem Accumulator.ext_bits {a b : Accumulator} (hn : a.n.toNat = b.n.toNat) (hb : ∀ i, i < 64 → a.box.getLsbD i = b.box.getLsbD i) :
    a = b := by
  obtain ⟨ab, an⟩ := a
  obtain ⟨bb, bn⟩ := b
  have h1 : ab = bb := BitVec.eq_of_getLsbD_eq hb
  have h2 : an = bn := BitVec.eq_of_toNat_eq hn
  simp [h1, h2]

/-- A value below 2^n is one whose bits from n up are 0. -/
theorem lt_two_pow_iff_bits (v : Word64) (n : Nat) : v.toNat < 2 ^ n ↔ ∀ i, n ≤ i → v.getLsbD i = false := by
  constructor
  · intro h i hi
    rw [BitVec.getLsbD]
    exact Nat.testBit_lt_two_pow (Nat.lt_of_lt_of_le h (Nat.pow_le_pow_right (by decide) hi))
  · intro h
    exact Nat.lt_pow_two_of_testBit _ (fun i hi => h i hi)

end Sys2Proof.Machine
end

