-- ==== Sys2Proof/Laws/Decode.lean ====
section
/-! SUPPORT. The opcode map selects at most one row per word, and what decoding by a row gives (R84, R89). -/

namespace Sys2Proof

/-- A row selects only words with its own opcode. -/
theorem OpRow.selects_opcode {r : OpRow} (hr : r ∈ opcodeMap) {cmd : CmdWord} (h : r.selects cmd = true) :
    cmd &&& 0xF = r.pattern &&& 0xF := by
  have hm : ∀ r ∈ opcodeMap, r.mask &&& 0xF = 0xF := by decide
  have h' : cmd &&& r.mask = r.pattern := by simpa [OpRow.selects] using h
  rw [← h', BitVec.and_assoc, hm r hr]

/-- At most one row selects a word (R84). -/
theorem opcodeMap_unique {r r' : OpRow} (hr : r ∈ opcodeMap) (hr' : r' ∈ opcodeMap) {cmd : CmdWord}
    (h : r.selects cmd = true) (h' : r'.selects cmd = true) : r = r' := by
  have key : ∀ r ∈ opcodeMap, ∀ r' ∈ opcodeMap, r.pattern &&& 0xF = r'.pattern &&& 0xF → r = r' := by decide
  exact key r hr r' hr' ((OpRow.selects_opcode hr h).symm.trans (OpRow.selects_opcode hr' h'))

/-- A word that a row selects is decoded by that row (R89). -/
theorem decode_of_selects {r : OpRow} (hr : r ∈ opcodeMap) {cmd : CmdWord} (h : r.selects cmd = true) :
    decode cmd = operandsOf r.op cmd := by
  have hsome : (opcodeMap.find? (fun r => r.selects cmd)).isSome := List.find?_isSome.mpr ⟨r, hr, h⟩
  obtain ⟨r', hf⟩ := Option.isSome_iff_exists.mp hsome
  have hr' : r = r' := opcodeMap_unique hr (List.mem_of_find?_eq_some hf) h (by simpa using List.find?_some hf)
  simp [decode, hf, hr']

/-- Everything decoding can do (R89). -/
theorem decode_cases (cmd : CmdWord) :
    (∃ r ∈ opcodeMap, cmd &&& r.mask = r.pattern ∧ decode cmd = operandsOf r.op cmd) ∨
    ((∀ r ∈ opcodeMap, cmd &&& r.mask ≠ r.pattern) ∧ decode cmd = .error (illegalReason cmd)) := by
  by_cases h : ∃ r ∈ opcodeMap, r.selects cmd = true
  · obtain ⟨r, hr, hs⟩ := h
    exact .inl ⟨r, hr, by simpa [OpRow.selects] using hs, decode_of_selects hr hs⟩
  · refine .inr ⟨fun r hr he => h ⟨r, hr, by simpa [OpRow.selects] using he⟩, ?_⟩
    have : opcodeMap.find? (fun r => r.selects cmd) = none :=
      List.find?_eq_none.mpr (fun r hr hs => h ⟨r, hr, hs⟩)
    simp [decode, this]

/-- The address check of REG_READ is R61's reserved rows. -/
theorem readableAddress_iff : ∀ a : BitVec 9, Machine.readableAddress a = true ↔ ¬ Machine.reservedAddress a := by decide

/-- The address check of REG_WRITE is R61's reserved and read-only rows. -/
theorem writableAddress_iff :
    ∀ a : BitVec 9, Machine.writableAddress a = true ↔ ¬ Machine.reservedAddress a ∧ ¬ Machine.readOnlyAddress a := by decide

/-- The operand's bits outside the fields a row uses are its pattern's: the word is its encoding. -/
theorem eq_of_and_eq {cmd m p q : CmdWord} (h : cmd &&& m = p) (hq : ∀ i, i < 32 → q.getLsbD i = if m.getLsbD i then p.getLsbD i else cmd.getLsbD i) :
    q = cmd := by
  apply BitVec.eq_of_getLsbD_eq
  intro i hi
  rw [hq i hi, ← h, BitVec.getLsbD_and]
  split <;> simp_all

end Sys2Proof
end

