-- ==== Sys2Proof/Laws/Layouts.lean ====
section
/-! SUPPORT. What a layout that passed the construction check guarantees (R143). -/

namespace Sys2Proof.Machine

@[simp] theorem layoutSum_nil : layoutSum [] = 0 := rfl

@[simp] theorem layoutSum_cons (f : FieldSpec) (l : Layout) : layoutSum (f :: l) = f.width + layoutSum l := by
  simp [layoutSum]

theorem layoutSum_append (l m : Layout) : layoutSum (l ++ m) = layoutSum l + layoutSum m := by
  simp [layoutSum]

/-- The construction check as a condition on the entries (R143). -/
theorem layoutFailure_eq_none_iff (l : Layout) :
    layoutFailure l = none ↔ (∀ f ∈ l, 1 ≤ f.width ∧ f.width ≤ 64) ∧ layoutSum l ≤ 64 := by
  unfold layoutFailure
  split
  next h =>
    simp only [List.any_eq_true, Bool.or_eq_true, decide_eq_true_eq] at h
    obtain ⟨f, hf, hw⟩ := h
    simp only [reduceCtorEq, false_iff, not_and]
    intro hall
    have := hall f hf
    omega
  next h =>
    have hall : ∀ f ∈ l, 1 ≤ f.width ∧ f.width ≤ 64 := by
      intro f hf
      have : ¬ (f.width < 1 ∨ 64 < f.width) := fun hw =>
        h (List.any_eq_true.mpr ⟨f, hf, by simpa using hw⟩)
      omega
    split <;> simp_all

theorem layoutW1_valid : layoutFailure layoutW1 = none := by decide

theorem State.layout_valid (s : State) (k : Fin 2) : layoutFailure (s.layout k) = none := by
  unfold State.layout
  split
  · exact layoutW1_valid
  · exact s.layoutW2.valid

/-- Every entry of an instance's layouts is 1 to 64 bits wide (R143). -/
theorem State.layout_width {s : State} {k : Fin 2} {f : FieldSpec} (h : f ∈ s.layout k) : 1 ≤ f.width ∧ f.width ≤ 64 :=
  ((layoutFailure_eq_none_iff _).mp (s.layout_valid k)).1 f h

/-- Every layout of an instance sums to at most 64 (R143). -/
theorem State.layout_sum_le (s : State) (k : Fin 2) : layoutSum (s.layout k) ≤ 64 :=
  ((layoutFailure_eq_none_iff _).mp (s.layout_valid k)).2

/-- A layout whose entries are at least one bit wide has no more entries than bits. -/
theorem length_le_layoutSum : ∀ (l : Layout), (∀ f ∈ l, 1 ≤ f.width) → l.length ≤ layoutSum l
  | [], _ => Nat.le_refl _
  | f :: l, h => by
    have hf := h f (by simp)
    have ih := length_le_layoutSum l (fun g hg => h g (by simp [hg]))
    simp only [List.length_cons, layoutSum_cons]
    omega

/-- A layout of an instance has at most FIELD_SLOTS entries (R143). -/
theorem State.layout_length_le (s : State) (k : Fin 2) : (s.layout k).length ≤ 64 :=
  Nat.le_trans (length_le_layoutSum _ (fun _ h => (State.layout_width h).1)) (s.layout_sum_le k)

end Sys2Proof.Machine
end

