-- ==== Sys2Proof/Laws/State.lean ====
section
/-! SUPPORT. What each register update does to each field of State: one lemma per field per update, true by rfl. -/

namespace Sys2Proof.Machine

variable (s : State)

@[simp] theorem State.setAcc_acc (a : Accumulator) : (s.setAcc a).acc = a := rfl
@[simp] theorem State.setAcc_banks (a : Accumulator) : (s.setAcc a).banks = s.banks := rfl
@[simp] theorem State.setAcc_words (a : Accumulator) : (s.setAcc a).words = s.words := rfl
@[simp] theorem State.setAcc_frame (a : Accumulator) : (s.setAcc a).frame = s.frame := rfl
@[simp] theorem State.setAcc_frameLen (a : Accumulator) : (s.setAcc a).frameLen = s.frameLen := rfl
@[simp] theorem State.setAcc_errstat (a : Accumulator) : (s.setAcc a).errstat = s.errstat := rfl
@[simp] theorem State.setAcc_dout (a : Accumulator) : (s.setAcc a).dout = s.dout := rfl
@[simp] theorem State.setAcc_resp (a : Accumulator) : (s.setAcc a).resp = s.resp := rfl
@[simp] theorem State.setAcc_layoutW2 (a : Accumulator) : (s.setAcc a).layoutW2 = s.layoutW2 := rfl
@[simp] theorem State.setAcc_din (a : Accumulator) : (s.setAcc a).din = s.din := rfl
@[simp] theorem State.setAcc_pending (a : Accumulator) : (s.setAcc a).pending = s.pending := rfl

@[simp] theorem State.setBank_acc (k : Fin 2) (b : Bank) : (s.setBank k b).acc = s.acc := rfl
@[simp] theorem State.setBank_banks (k : Fin 2) (b : Bank) : (s.setBank k b).banks = s.banks.set k b := rfl
@[simp] theorem State.setBank_words (k : Fin 2) (b : Bank) : (s.setBank k b).words = s.words := rfl
@[simp] theorem State.setBank_frame (k : Fin 2) (b : Bank) : (s.setBank k b).frame = s.frame := rfl
@[simp] theorem State.setBank_frameLen (k : Fin 2) (b : Bank) : (s.setBank k b).frameLen = s.frameLen := rfl
@[simp] theorem State.setBank_errstat (k : Fin 2) (b : Bank) : (s.setBank k b).errstat = s.errstat := rfl
@[simp] theorem State.setBank_dout (k : Fin 2) (b : Bank) : (s.setBank k b).dout = s.dout := rfl
@[simp] theorem State.setBank_resp (k : Fin 2) (b : Bank) : (s.setBank k b).resp = s.resp := rfl
@[simp] theorem State.setBank_layoutW2 (k : Fin 2) (b : Bank) : (s.setBank k b).layoutW2 = s.layoutW2 := rfl
@[simp] theorem State.setBank_din (k : Fin 2) (b : Bank) : (s.setBank k b).din = s.din := rfl
@[simp] theorem State.setBank_pending (k : Fin 2) (b : Bank) : (s.setBank k b).pending = s.pending := rfl

@[simp] theorem State.setField_acc (k : Fin 2) (i : Fin 64) (v : Word64) : (s.setField k i v).acc = s.acc := rfl
@[simp] theorem State.setField_banks (k : Fin 2) (i : Fin 64) (v : Word64) : (s.setField k i v).banks = s.banks.set k ((s.bank k).set i v) := rfl
@[simp] theorem State.setField_words (k : Fin 2) (i : Fin 64) (v : Word64) : (s.setField k i v).words = s.words := rfl
@[simp] theorem State.setField_frame (k : Fin 2) (i : Fin 64) (v : Word64) : (s.setField k i v).frame = s.frame := rfl
@[simp] theorem State.setField_frameLen (k : Fin 2) (i : Fin 64) (v : Word64) : (s.setField k i v).frameLen = s.frameLen := rfl
@[simp] theorem State.setField_errstat (k : Fin 2) (i : Fin 64) (v : Word64) : (s.setField k i v).errstat = s.errstat := rfl
@[simp] theorem State.setField_dout (k : Fin 2) (i : Fin 64) (v : Word64) : (s.setField k i v).dout = s.dout := rfl
@[simp] theorem State.setField_resp (k : Fin 2) (i : Fin 64) (v : Word64) : (s.setField k i v).resp = s.resp := rfl
@[simp] theorem State.setField_layoutW2 (k : Fin 2) (i : Fin 64) (v : Word64) : (s.setField k i v).layoutW2 = s.layoutW2 := rfl
@[simp] theorem State.setField_din (k : Fin 2) (i : Fin 64) (v : Word64) : (s.setField k i v).din = s.din := rfl
@[simp] theorem State.setField_pending (k : Fin 2) (i : Fin 64) (v : Word64) : (s.setField k i v).pending = s.pending := rfl

@[simp] theorem State.setWord_acc (k : Fin 2) (v : Word64) : (s.setWord k v).acc = s.acc := rfl
@[simp] theorem State.setWord_banks (k : Fin 2) (v : Word64) : (s.setWord k v).banks = s.banks := rfl
@[simp] theorem State.setWord_words (k : Fin 2) (v : Word64) : (s.setWord k v).words = s.words.set k v := rfl
@[simp] theorem State.setWord_frame (k : Fin 2) (v : Word64) : (s.setWord k v).frame = s.frame := rfl
@[simp] theorem State.setWord_frameLen (k : Fin 2) (v : Word64) : (s.setWord k v).frameLen = s.frameLen := rfl
@[simp] theorem State.setWord_errstat (k : Fin 2) (v : Word64) : (s.setWord k v).errstat = s.errstat := rfl
@[simp] theorem State.setWord_dout (k : Fin 2) (v : Word64) : (s.setWord k v).dout = s.dout := rfl
@[simp] theorem State.setWord_resp (k : Fin 2) (v : Word64) : (s.setWord k v).resp = s.resp := rfl
@[simp] theorem State.setWord_layoutW2 (k : Fin 2) (v : Word64) : (s.setWord k v).layoutW2 = s.layoutW2 := rfl
@[simp] theorem State.setWord_din (k : Fin 2) (v : Word64) : (s.setWord k v).din = s.din := rfl
@[simp] theorem State.setWord_pending (k : Fin 2) (v : Word64) : (s.setWord k v).pending = s.pending := rfl

@[simp] theorem State.setFrame_acc (f : Frame) : (s.setFrame f).acc = s.acc := rfl
@[simp] theorem State.setFrame_banks (f : Frame) : (s.setFrame f).banks = s.banks := rfl
@[simp] theorem State.setFrame_words (f : Frame) : (s.setFrame f).words = s.words := rfl
@[simp] theorem State.setFrame_frame (f : Frame) : (s.setFrame f).frame = f := rfl
@[simp] theorem State.setFrame_frameLen (f : Frame) : (s.setFrame f).frameLen = s.frameLen := rfl
@[simp] theorem State.setFrame_errstat (f : Frame) : (s.setFrame f).errstat = s.errstat := rfl
@[simp] theorem State.setFrame_dout (f : Frame) : (s.setFrame f).dout = s.dout := rfl
@[simp] theorem State.setFrame_resp (f : Frame) : (s.setFrame f).resp = s.resp := rfl
@[simp] theorem State.setFrame_layoutW2 (f : Frame) : (s.setFrame f).layoutW2 = s.layoutW2 := rfl
@[simp] theorem State.setFrame_din (f : Frame) : (s.setFrame f).din = s.din := rfl
@[simp] theorem State.setFrame_pending (f : Frame) : (s.setFrame f).pending = s.pending := rfl

@[simp] theorem State.setFrameLen_acc (n : BitVec 8) : (s.setFrameLen n).acc = s.acc := rfl
@[simp] theorem State.setFrameLen_banks (n : BitVec 8) : (s.setFrameLen n).banks = s.banks := rfl
@[simp] theorem State.setFrameLen_words (n : BitVec 8) : (s.setFrameLen n).words = s.words := rfl
@[simp] theorem State.setFrameLen_frame (n : BitVec 8) : (s.setFrameLen n).frame = s.frame := rfl
@[simp] theorem State.setFrameLen_frameLen (n : BitVec 8) : (s.setFrameLen n).frameLen = n := rfl
@[simp] theorem State.setFrameLen_errstat (n : BitVec 8) : (s.setFrameLen n).errstat = s.errstat := rfl
@[simp] theorem State.setFrameLen_dout (n : BitVec 8) : (s.setFrameLen n).dout = s.dout := rfl
@[simp] theorem State.setFrameLen_resp (n : BitVec 8) : (s.setFrameLen n).resp = s.resp := rfl
@[simp] theorem State.setFrameLen_layoutW2 (n : BitVec 8) : (s.setFrameLen n).layoutW2 = s.layoutW2 := rfl
@[simp] theorem State.setFrameLen_din (n : BitVec 8) : (s.setFrameLen n).din = s.din := rfl
@[simp] theorem State.setFrameLen_pending (n : BitVec 8) : (s.setFrameLen n).pending = s.pending := rfl

@[simp] theorem State.setErrstat_acc (e : BitVec 5) : (s.setErrstat e).acc = s.acc := rfl
@[simp] theorem State.setErrstat_banks (e : BitVec 5) : (s.setErrstat e).banks = s.banks := rfl
@[simp] theorem State.setErrstat_words (e : BitVec 5) : (s.setErrstat e).words = s.words := rfl
@[simp] theorem State.setErrstat_frame (e : BitVec 5) : (s.setErrstat e).frame = s.frame := rfl
@[simp] theorem State.setErrstat_frameLen (e : BitVec 5) : (s.setErrstat e).frameLen = s.frameLen := rfl
@[simp] theorem State.setErrstat_errstat (e : BitVec 5) : (s.setErrstat e).errstat = e := rfl
@[simp] theorem State.setErrstat_dout (e : BitVec 5) : (s.setErrstat e).dout = s.dout := rfl
@[simp] theorem State.setErrstat_resp (e : BitVec 5) : (s.setErrstat e).resp = s.resp := rfl
@[simp] theorem State.setErrstat_layoutW2 (e : BitVec 5) : (s.setErrstat e).layoutW2 = s.layoutW2 := rfl
@[simp] theorem State.setErrstat_din (e : BitVec 5) : (s.setErrstat e).din = s.din := rfl
@[simp] theorem State.setErrstat_pending (e : BitVec 5) : (s.setErrstat e).pending = s.pending := rfl

@[simp] theorem State.setDout_acc (v : Word64) : (s.setDout v).acc = s.acc := rfl
@[simp] theorem State.setDout_banks (v : Word64) : (s.setDout v).banks = s.banks := rfl
@[simp] theorem State.setDout_words (v : Word64) : (s.setDout v).words = s.words := rfl
@[simp] theorem State.setDout_frame (v : Word64) : (s.setDout v).frame = s.frame := rfl
@[simp] theorem State.setDout_frameLen (v : Word64) : (s.setDout v).frameLen = s.frameLen := rfl
@[simp] theorem State.setDout_errstat (v : Word64) : (s.setDout v).errstat = s.errstat := rfl
@[simp] theorem State.setDout_dout (v : Word64) : (s.setDout v).dout = v := rfl
@[simp] theorem State.setDout_resp (v : Word64) : (s.setDout v).resp = s.resp := rfl
@[simp] theorem State.setDout_layoutW2 (v : Word64) : (s.setDout v).layoutW2 = s.layoutW2 := rfl
@[simp] theorem State.setDout_din (v : Word64) : (s.setDout v).din = s.din := rfl
@[simp] theorem State.setDout_pending (v : Word64) : (s.setDout v).pending = s.pending := rfl

@[simp] theorem State.setResp_acc (r : BitVec 4) : (s.setResp r).acc = s.acc := rfl
@[simp] theorem State.setResp_banks (r : BitVec 4) : (s.setResp r).banks = s.banks := rfl
@[simp] theorem State.setResp_words (r : BitVec 4) : (s.setResp r).words = s.words := rfl
@[simp] theorem State.setResp_frame (r : BitVec 4) : (s.setResp r).frame = s.frame := rfl
@[simp] theorem State.setResp_frameLen (r : BitVec 4) : (s.setResp r).frameLen = s.frameLen := rfl
@[simp] theorem State.setResp_errstat (r : BitVec 4) : (s.setResp r).errstat = s.errstat := rfl
@[simp] theorem State.setResp_dout (r : BitVec 4) : (s.setResp r).dout = s.dout := rfl
@[simp] theorem State.setResp_resp (r : BitVec 4) : (s.setResp r).resp = r := rfl
@[simp] theorem State.setResp_layoutW2 (r : BitVec 4) : (s.setResp r).layoutW2 = s.layoutW2 := rfl
@[simp] theorem State.setResp_din (r : BitVec 4) : (s.setResp r).din = s.din := rfl
@[simp] theorem State.setResp_pending (r : BitVec 4) : (s.setResp r).pending = s.pending := rfl

@[simp] theorem State.raise_acc (e : Err) : (s.raise e).acc = s.acc := rfl
@[simp] theorem State.raise_banks (e : Err) : (s.raise e).banks = s.banks := rfl
@[simp] theorem State.raise_words (e : Err) : (s.raise e).words = s.words := rfl
@[simp] theorem State.raise_frame (e : Err) : (s.raise e).frame = s.frame := rfl
@[simp] theorem State.raise_frameLen (e : Err) : (s.raise e).frameLen = s.frameLen := rfl
@[simp] theorem State.raise_errstat (e : Err) : (s.raise e).errstat = logError s.errstat e := rfl
@[simp] theorem State.raise_dout (e : Err) : (s.raise e).dout = s.dout := rfl
@[simp] theorem State.raise_resp (e : Err) : (s.raise e).resp = e.code := rfl
@[simp] theorem State.raise_layoutW2 (e : Err) : (s.raise e).layoutW2 = s.layoutW2 := rfl
@[simp] theorem State.raise_din (e : Err) : (s.raise e).din = s.din := rfl
@[simp] theorem State.raise_pending (e : Err) : (s.raise e).pending = s.pending := rfl

@[simp] theorem State.layout_zero : s.layout 0 = layoutW1 := rfl
@[simp] theorem State.layout_one : s.layout 1 = s.layoutW2.entries := rfl

/-- The layouts depend on the construction constant alone (R49). -/
theorem State.layout_congr {s t : State} (h : s.layoutW2 = t.layoutW2) (k : Fin 2) : s.layout k = t.layout k := by
  simp [State.layout, h]

/-- A word register after a write to a word register. -/
theorem State.setWord_wordReg (k j : Fin 2) (v : Word64) : (s.setWord k v).wordReg j = if k = j then v else s.wordReg j := by
  simp [State.wordReg, Vector.getElem_set, Fin.ext_iff]

/-- A field register after a write to a whole bank. -/
theorem State.setBank_fieldReg (k j : Fin 2) (b : Bank) (i : Fin 64) :
    (s.setBank k b).fieldReg j i = if k = j then b[i] else s.fieldReg j i := by
  simp only [State.fieldReg, State.bank, State.setBank_banks, Fin.getElem_fin, Vector.getElem_set, Fin.ext_iff]
  split <;> rfl

/-- A field register after a write to one field register. -/
theorem State.setField_fieldReg (k j : Fin 2) (i m : Fin 64) (v : Word64) :
    (s.setField k i v).fieldReg j m = if k = j ∧ i = m then v else s.fieldReg j m := by
  rw [State.setField, State.setBank_fieldReg]
  by_cases hk : k = j
  · subst hk
    simp [State.fieldReg, State.bank, Vector.getElem_set, Fin.ext_iff]
  · simp [hk]

end Sys2Proof.Machine
end

