-- ==== Sys2Proof/Laws/Ops.lean ====
section
/-! SUPPORT. Completing and failing a command, and register access. -/

namespace Sys2Proof.Machine

@[simp] theorem respond_ok (s t : State) : respond s (.ok t) = .next (t.setResp respOk) := rfl

@[simp] theorem respond_error (s : State) (e : Err) : respond s (.error e) = .next (s.raise e) := rfl

@[simp] theorem respond_pure (s t : State) : respond s (pure t) = .next (t.setResp respOk) := rfl

/-- A command either commits its writes with OK, or fails with none of them (R18). -/
theorem respond_cases (s : State) (r : Except Err State) :
    (∃ t, r = .ok t ∧ respond s r = .next (t.setResp respOk)) ∨ (∃ e, r = .error e ∧ respond s r = .next (s.raise e)) := by
  cases r with
  | ok t => exact .inl ⟨t, rfl, rfl⟩
  | error e => exact .inr ⟨e, rfl, rfl⟩

/-- The response codes are 1 to 5 (R220). -/
theorem Err.code_bounds (e : Err) : 1 ≤ e.code.toNat ∧ e.code.toNat ≤ 5 := by cases e <;> decide

/-- A failure sets the ERRSTAT bit of its code and leaves the others (R236). -/
theorem getLsbD_logError (errstat : BitVec 5) (e : Err) (b : Nat) :
    (logError errstat e).getLsbD b = (errstat.getLsbD b || decide (b = e.code.toNat - 1)) := by
  by_cases hb : b < 5
  · have : b = 0 ∨ b = 1 ∨ b = 2 ∨ b = 3 ∨ b = 4 := by omega
    rcases this with rfl | rfl | rfl | rfl | rfl <;> cases e <;> simp [logError, Err.flag, Err.code]
  · have := e.code_bounds
    rw [BitVec.getLsbD_of_ge _ _ (by omega), BitVec.getLsbD_of_ge _ _ (by omega)]
    simp only [Bool.false_or, Bool.false_eq, decide_eq_false_iff_not]
    omega

/-- A register write touches no register but FIELD, WORD, FRAME and FRAME_LEN (R202). -/
theorem memWrite_frame (s : State) (r : Reg) (v : Word64) :
    memWrite s r v = { s with
      banks := (memWrite s r v).banks, words := (memWrite s r v).words,
      frame := (memWrite s r v).frame, frameLen := (memWrite s r v).frameLen } := by
  cases r <;> rfl

end Sys2Proof.Machine
end

