-- ==== Sys2Proof/Laws/PerInstr.lean ====
section
/-! SUPPORT. Families of statements about every command as syntax, one lemma per constructor. -/

namespace Sys2Proof.Laws

open Sys2Proof

/-- The mnemonic of R84 a command belongs to. -/
def RowMatch.opOf : Instr → Op
  | .nop => .nop
  | .accClear => .accClear
  | .accPush _ => .accPush
  | .accPop _ _ => .accPop
  | .packWord _ => .packWord
  | .unpackWord _ => .unpackWord
  | .frameWrap => .frameWrap
  | .frameCheck => .frameCheck
  | .regRead _ => .regRead
  | .regWrite _ => .regWrite
  | .errClear => .errClear

/-- RowMatch: the row of R84 that a command's mnemonic names selects the command's word. -/
def RowMatch.Statement (i : Instr) : Prop :=
  ∃ r ∈ opcodeMap, r.op = RowMatch.opOf i ∧ (encode i &&& r.mask) = r.pattern

theorem RowMatch.nop : RowMatch.Statement .nop :=
  ⟨⟨.nop, 0x00000000, 0xFFFFFFFF⟩, by decide, rfl, by decide⟩

theorem RowMatch.accClear : RowMatch.Statement .accClear :=
  ⟨⟨.accClear, 0x00000001, 0xFFFFFFFF⟩, by decide, rfl, by decide⟩

theorem RowMatch.accPush (w : BitVec 7) : RowMatch.Statement (.accPush w) :=
  ⟨⟨.accPush, 0x00000002, 0xFFFFF80F⟩, by decide, rfl, by revert w; decide⟩

theorem RowMatch.accPop (w : BitVec 7) (sgn : Bool) : RowMatch.Statement (.accPop w sgn) :=
  ⟨⟨.accPop, 0x00000003, 0xFFFFF00F⟩, by decide, rfl, by revert w sgn; decide⟩

theorem RowMatch.packWord (k : Fin 2) : RowMatch.Statement (.packWord k) :=
  ⟨⟨.packWord, 0x00000004, 0xFFFFEFFF⟩, by decide, rfl, by revert k; decide⟩

theorem RowMatch.unpackWord (k : Fin 2) : RowMatch.Statement (.unpackWord k) :=
  ⟨⟨.unpackWord, 0x00000005, 0xFFFFEFFF⟩, by decide, rfl, by revert k; decide⟩

theorem RowMatch.frameWrap : RowMatch.Statement .frameWrap :=
  ⟨⟨.frameWrap, 0x00000006, 0xFFFFFFFF⟩, by decide, rfl, by decide⟩

theorem RowMatch.frameCheck : RowMatch.Statement .frameCheck :=
  ⟨⟨.frameCheck, 0x00000007, 0xFFFFFFFF⟩, by decide, rfl, by decide⟩

theorem RowMatch.regRead (a : BitVec 9) : RowMatch.Statement (.regRead a) :=
  ⟨⟨.regRead, 0x00000008, 0xFFC01FFF⟩, by decide, rfl, by revert a; decide⟩

theorem RowMatch.regWrite (a : BitVec 9) : RowMatch.Statement (.regWrite a) :=
  ⟨⟨.regWrite, 0x00000009, 0xFFC01FFF⟩, by decide, rfl, by revert a; decide⟩

theorem RowMatch.errClear : RowMatch.Statement .errClear :=
  ⟨⟨.errClear, 0x0000000A, 0xFFFFFFFF⟩, by decide, rfl, by decide⟩

end Sys2Proof.Laws
end

