-- ==== Sys2Proof/Laws/Scratch.lean ====
section
/-! SUPPORT. The loops over a scratch accumulator: they never fail within 64 bits, and what they leave bit by bit (R145, R118). -/

namespace Sys2Proof.Machine

@[simp] theorem fieldPos_cons_zero (f : FieldSpec) (l : Layout) : fieldPos (f :: l) 0 = layoutSum l := rfl

@[simp] theorem fieldPos_cons_succ (f : FieldSpec) (l : Layout) (j : Nat) : fieldPos (f :: l) (j + 1) = fieldPos l j := rfl

/-- A field lies within its layout's bits (R145). -/
theorem fieldPos_add_width_le : ∀ (l : Layout) (j : Nat) (f : FieldSpec), l[j]? = some f → fieldPos l j + f.width ≤ layoutSum l
  | [], _, _, h => by simp at h
  | g :: l, 0, f, h => by
    obtain rfl : g = f := by simpa using h
    simp [Nat.add_comm]
  | g :: l, j + 1, f, h => by
    have := fieldPos_add_width_le l j f (by simpa using h)
    simp only [fieldPos_cons_succ, layoutSum_cons]
    omega

/-- The packer's loop (R146): it succeeds within 64 bits; each field's bits stand at its position, the earlier bits above them. -/
theorem pushFields_ok (b : Bank) : ∀ (l : Layout) (i : Nat) (a : Accumulator), a.n.toNat + layoutSum l ≤ 64 →
    ∃ a', pushFields b l i a = .ok a' ∧ a'.n.toNat = a.n.toNat + layoutSum l ∧
      (∀ j f, l[j]? = some f → ∀ t, t < f.width → a'.box.getLsbD (fieldPos l j + t) = (slot b (i + j)).getLsbD t) ∧
      (∀ t, layoutSum l ≤ t → a'.box.getLsbD t = (decide (t < 64) && a.box.getLsbD (t - layoutSum l)))
  | [], i, a, _ => by
    refine ⟨a, rfl, by simp, by simp, ?_⟩
    intro t _
    by_cases h : t < 64
    · simp [h]
    · simp [h, BitVec.getLsbD_of_ge a.box t (by omega)]
  | f :: l, i, a, h => by
    rw [layoutSum_cons] at h
    obtain ⟨h1, _⟩ | ⟨_, a1, e1, n1, b1⟩ := accPush_cases a (slot b i) f.width
    · omega
    obtain ⟨a2, e2, n2, f2, b2⟩ := pushFields_ok b l (i + 1) a1 (by omega)
    refine ⟨a2, by simp [pushFields, e1, e2], by rw [layoutSum_cons]; omega, ?_, ?_⟩
    · rintro (_ | j) g hg t ht
      · obtain rfl : f = g := by simpa using hg
        rw [fieldPos_cons_zero, b2 _ (by omega), Nat.add_sub_cancel_left, b1, if_pos ht]
        simp only [Nat.add_zero, Bool.and_eq_right_iff_imp, decide_eq_true_eq]
        omega
      · rw [fieldPos_cons_succ, f2 j g (by simpa using hg) t ht]
        congr 2
        omega
    · intro t ht
      rw [layoutSum_cons] at ht
      rw [b2 t (by omega), b1, if_neg (by omega), layoutSum_cons, Nat.sub_sub, Nat.add_comm (layoutSum l)]
      by_cases h64 : t < 64
      · have : t - layoutSum l < 64 := by omega
        simp [h64, this]
      · simp [h64]

/-- The unpacker's loop (R160) on exactly the layout's bits: it succeeds; slot i + j gets field j, the other slots keep their value. -/
theorem popFields_ok : ∀ (l : Layout) (i : Nat) (a : Accumulator) (b : Bank),
    a.n.toNat = layoutSum l → a.n.toNat ≤ 64 →
    ∃ b', popFields l i a b = .ok b' ∧
      (∀ j f, l[j]? = some f → i + j < 64 → b'[i + j]? = some (extend64 f.signed f.width (a.box >>> fieldPos l j))) ∧
      (∀ m, m < i ∨ i + l.length ≤ m → b'[m]? = b[m]?)
  | [], i, a, b, _, _ => ⟨b, rfl, by simp, by simp⟩
  | f :: l, i, a, b, hn, h64 => by
    rw [layoutSum_cons] at hn
    obtain ⟨h1 | h1, _⟩ | ⟨_, _, a1, r, e1, n1, b1, hr⟩ := accPop_cases a f.width f.signed
    · omega
    · omega
    obtain ⟨b2, e2, f2, u2⟩ := popFields_ok l (i + 1) a1 (b.setIfInBounds i r) (by omega) (by omega)
    refine ⟨b2, by simp [popFields, e1, e2], ?_, ?_⟩
    · rintro (_ | j) g hg hj
      · obtain rfl : f = g := by simpa using hg
        rw [u2 _ (by omega), hr, fieldPos_cons_zero, hn, Nat.add_sub_cancel_left]
        simp only [Nat.add_zero] at hj ⊢
        simp [hj]
      · have := f2 j g (by simpa using hg) (by omega)
        rw [show i + (j + 1) = i + 1 + j by omega, this, fieldPos_cons_succ]
        congr 1
        apply extend64_congr
        intro t ht
        have hp := fieldPos_add_width_le l j g (by simpa using hg)
        rw [BitVec.getLsbD_ushiftRight, BitVec.getLsbD_ushiftRight, b1]
        simp only [Bool.and_eq_right_iff_imp, decide_eq_true_eq]
        omega
    · intro m hm
      rw [List.length_cons] at hm
      rw [u2 m (by omega), Vector.getElem?_setIfInBounds]
      split
      · omega
      · rfl

/-- Byte assembly (R64, R118): it succeeds within 64 bits; byte j's bits stand at 8(len - 1 - j), the earlier bits above them. -/
theorem pushBytes_ok : ∀ (l : List Byte) (a : Accumulator), a.n.toNat + 8 * l.length ≤ 64 →
    ∃ a', pushBytes l a = .ok a' ∧ a'.n.toNat = a.n.toNat + 8 * l.length ∧
      (∀ j x, l[j]? = some x → ∀ t, t < 8 → a'.box.getLsbD (8 * (l.length - 1 - j) + t) = x.getLsbD t) ∧
      (∀ t, 8 * l.length ≤ t → a'.box.getLsbD t = (decide (t < 64) && a.box.getLsbD (t - 8 * l.length)))
  | [], a, _ => by
    refine ⟨a, rfl, by simp, by simp, ?_⟩
    intro t _
    by_cases h : t < 64
    · simp [h]
    · simp [h, BitVec.getLsbD_of_ge a.box t (by omega)]
  | x :: l, a, h => by
    rw [List.length_cons] at h
    obtain ⟨h1, _⟩ | ⟨_, a1, e1, n1, b1⟩ := accPush_cases a (x.setWidth 64) 8
    · omega
    obtain ⟨a2, e2, n2, f2, b2⟩ := pushBytes_ok l a1 (by omega)
    refine ⟨a2, by simp [pushBytes, e1, e2], by rw [List.length_cons]; omega, ?_, ?_⟩
    · rintro (_ | j) y hy t ht
      · obtain rfl : x = y := by simpa using hy
        simp only [List.length_cons, Nat.sub_zero, Nat.add_sub_cancel]
        rw [b2 _ (by omega), Nat.add_sub_cancel_left, b1, if_pos ht, BitVec.getLsbD_setWidth]
        have h1 : 8 * l.length + t < 64 := by omega
        have h2 : t < 64 := by omega
        simp [h1, h2]
      · have := f2 j y (by simpa using hy) t ht
        simp only [List.length_cons]
        rw [show l.length + 1 - 1 - (j + 1) = l.length - 1 - j by omega]
        exact this
    · intro t ht
      rw [List.length_cons] at ht
      rw [b2 t (by omega), b1, if_neg (by omega), List.length_cons]
      rw [show t - 8 * l.length - 8 = t - 8 * (l.length + 1) by omega]
      by_cases h64 : t < 64
      · have : t - 8 * l.length < 64 := by omega
        simp [h64, this]
      · simp [h64]

/-- The pad of a fresh accumulator (R145): after it, the layout's own bits are left. -/
theorem pushPad_ok (l : Layout) (h : layoutSum l ≤ 64) :
    ∃ a, pushPad l Accumulator.empty = .ok a ∧ a.n.toNat = 64 - layoutSum l ∧ ∀ i, a.box.getLsbD i = false := by
  unfold pushPad
  split
  next hlt =>
    obtain ⟨h1, _⟩ | ⟨_, a, e, n, b⟩ := accPush_cases Accumulator.empty 0 (64 - layoutSum l)
    · have : Accumulator.empty.n.toNat = 0 := rfl
      omega
    · refine ⟨a, e, by simpa [Accumulator.empty] using n, fun i => ?_⟩
      rw [b i]
      simp [Accumulator.empty]
  next hge =>
    refine ⟨_, rfl, ?_, by simp [Accumulator.empty]⟩
    have : Accumulator.empty.n.toNat = 0 := rfl
    omega

/-- Skipping the pad of a full accumulator (R162): the layout's own bits are left. -/
theorem popPad_ok (l : Layout) (a : Accumulator) (hn : a.n.toNat = 64) (h : layoutSum l ≤ 64) :
    ∃ a', popPad l a = .ok a' ∧ a'.n.toNat = layoutSum l ∧ ∀ i, i < layoutSum l → a'.box.getLsbD i = a.box.getLsbD i := by
  unfold popPad
  split
  next hlt =>
    obtain ⟨h1 | h1, _⟩ | ⟨_, _, a', r, e, n, b, _⟩ := accPop_cases a (64 - layoutSum l) false
    · omega
    · omega
    · refine ⟨a', by simp [e], by omega, fun i hi => ?_⟩
      rw [b i]
      simp only [Bool.and_eq_right_iff_imp, decide_eq_true_eq]
      omega
  next hge => exact ⟨a, rfl, by omega, fun _ _ => rfl⟩

theorem payloadIndex_inj {k : Fin 2} {i j : Fin 8} (h : payloadIndex k i = payloadIndex k j) : i = j := by
  simp only [payloadIndex, Fin.mk.injEq] at h
  omega

/-- The framer's byte loop (R181) on exactly the bytes' bits: position m of the list gets the m-th byte from the top, the frame's other
bytes keep their value. -/
theorem popBytes_ok (k : Fin 2) : ∀ (js : List (Fin 8)) (a : Accumulator) (f : Frame),
    a.n.toNat = 8 * js.length → js.length ≤ 8 → js.Nodup →
    ∃ f', popBytes k js a f = .ok f' ∧
      (∀ m x, js[m]? = some x → f'[payloadIndex k x] = a.box.extractLsb' (8 * (js.length - 1 - m)) 8) ∧
      (∀ j : Fin 18, (∀ x ∈ js, payloadIndex k x ≠ j) → f'[j] = f[j])
  | [], a, f, _, _, _ => ⟨f, rfl, by simp, fun _ _ => rfl⟩
  | x :: js, a, f, hn, hl, hd => by
    rw [List.length_cons] at hn hl
    obtain ⟨hx, hd⟩ := List.nodup_cons.mp hd
    obtain ⟨h1 | h1, _⟩ | ⟨_, _, a1, r, e1, n1, b1, hr⟩ := accPop_cases a 8 false
    · omega
    · omega
    obtain ⟨f2, e2, p2, u2⟩ := popBytes_ok k js a1 (f.set (payloadIndex k x) (r.setWidth 8)) (by omega) (by omega) hd
    refine ⟨f2, by simp [popBytes, e1, e2], ?_, ?_⟩
    · rintro (_ | m) y hy
      · obtain rfl : x = y := by simpa using hy
        rw [u2 _ (fun z hz he => hx (by obtain rfl := payloadIndex_inj he; exact hz))]
        simp only [Fin.getElem_fin, Vector.getElem_set_self, List.length_cons, hr]
        apply BitVec.eq_of_getLsbD_eq
        intro t ht
        rw [BitVec.getLsbD_setWidth, getLsbD_extend64 _ _ _ (by omega), if_pos ht, BitVec.getLsbD_ushiftRight,
          BitVec.getLsbD_extractLsb']
        simp only [ht, decide_true, Bool.true_and]
        congr 1
        omega
      · rw [p2 m y (by simpa using hy)]
        have hm : m < js.length := (List.getElem?_eq_some_iff.mp (by simpa using hy : js[m]? = some y)).1
        apply BitVec.eq_of_getLsbD_eq
        intro t ht
        rw [BitVec.getLsbD_extractLsb', BitVec.getLsbD_extractLsb', b1, List.length_cons]
        have h2 : 8 * (js.length - 1 - m) + t < a.n.toNat - 8 := by omega
        rw [show js.length + 1 - 1 - (m + 1) = js.length - 1 - m by omega]
        simp [h2]
    · intro j hj
      rw [u2 j (fun z hz => hj z (List.mem_cons_of_mem _ hz))]
      have := hj x List.mem_cons_self
      simp only [Fin.getElem_fin]
      rw [Vector.getElem_set_ne _ _ (fun h => this (Fin.ext h))]

end Sys2Proof.Machine
end

