-- ==== Sys2Proof/Laws/Step.lean ====
section
/-! SUPPORT. One lemma per kind of host event: what a step does with it. -/

namespace Sys2Proof.Machine

theorem step_idle {s : State} (h : s.pending = []) : step s = .next s := by
  simp [step, h, State.idle]

theorem step_reset {s : State} {rest : List HostEvent} (h : s.pending = .reset :: rest) : step s = .next (s.takeReset rest) := by
  simp [step, h]

theorem step_command {s : State} {c : Command} {rest : List HostEvent} (h : s.pending = .command c :: rest) :
    step s = runWord c.cmd (s.accept c rest) := by
  simp [step, h]

theorem runWord_ok {cmd : CmdWord} {i : Instr} (h : decode cmd = .ok i) (s : State) : runWord cmd s = exec i s := by
  simp [runWord, h]

theorem runWord_error {cmd : CmdWord} {e : DecodeError} (h : decode cmd = .error e) (s : State) :
    runWord cmd s = .next (s.raise .illegalCommand) := by
  simp [runWord, h, execIllegal]

/-- Accepting what was just presented leaves the later events as they were. -/
theorem accept_present (s : State) (c : Command) : (s.present c).accept c s.pending = { s with din := c.din } := rfl

theorem issue_eq {s t : State} {c : Command} (h : runWord c.cmd { s with din := c.din } = .next t) : issue c s = t := by
  unfold issue
  rw [step_command rfl, accept_present, h]

/-- Every command's meaning is one success or one failure from the state before it (R18, R257). -/
theorem exec_responds (i : Instr) (s : State) : ∃ r, exec i s = respond s r := by
  cases i with
  | nop => exact ⟨.ok s, rfl⟩
  | accClear => exact ⟨.ok (s.setAcc Accumulator.empty), rfl⟩
  | errClear => exact ⟨.ok (s.setErrstat 0), rfl⟩
  | frameWrap => exact ⟨_, by simp only [exec, execFrameWrap]; rfl⟩
  | frameCheck => exact ⟨_, by simp only [exec, execFrameCheck]; rfl⟩
  | accPush w => exact ⟨_, rfl⟩
  | accPop w sgn => exact ⟨_, rfl⟩
  | packWord k => exact ⟨_, rfl⟩
  | unpackWord k => exact ⟨_, rfl⟩
  | regRead a => exact ⟨_, rfl⟩
  | regWrite a => exact ⟨_, rfl⟩

/-- Every command word answers a next state (R257). -/
theorem runWord_next (cmd : CmdWord) (s : State) : ∃ t, runWord cmd s = .next t := by
  cases h : decode cmd with
  | ok i =>
    obtain ⟨r, hr⟩ := exec_responds i s
    exact ⟨_, (runWord_ok h s).trans hr⟩
  | error e => exact ⟨_, runWord_error h s⟩

end Sys2Proof.Machine
end

