-- ==== Sys2Proof/Tests/Slice0.lean ====
section
/-! SUPPORT. Tests. Expected results are the vectors of spec/95_test_vectors.md (ids V-...), and the encodings of R84 written out in bits. -/

namespace Sys2Proof.Tests

open Sys2Proof Sys2Proof.Machine

/-- The test-only word-2 layout L2T of D31. -/
def l2t : ValidLayout :=
  { entries := [⟨9, true⟩, ⟨9, true⟩, ⟨9, true⟩, ⟨12, false⟩, ⟨8, true⟩, ⟨8, false⟩, ⟨8, false⟩] }

/-- The reset state of the instance L0 + L2T. -/
def base : State := State.resetOf l2t

/-- The base state with an accumulator and an operand. -/
def withAcc (box : Word64) (n : BitVec 7) (din : Word64) : State := { base with acc := ⟨box, n⟩, din := din }

/-- The base state with values in the first field registers of bank k. -/
def withFields (k : Fin 2) (vs : List Int) : State :=
  base.setBank k ((vs.zipIdx).foldl (fun b p => b.setIfInBounds p.2 (BitVec.ofInt 64 p.1)) (base.bank k))

/-- A frame from its bytes. -/
def frameOf (bs : List Byte) : Frame := (bs.zipIdx).foldl (fun f p => f.setIfInBounds p.2 p.1) (Vector.replicate 18 0)

/-- The frame of V-S1. -/
def frameS1 : Frame :=
  frameOf [0x5E, 0x16, 0xAD, 0x1F, 0x80, 0x3F, 0xF0, 0x07, 0xFF, 0x67, 0x1F, 0xF0, 0x0B, 0xB8, 0xD8, 0xC8, 0x00, 0xD5]

/-- The base state with a frame and its length. -/
def withFrame (f : Frame) (n : BitVec 8) : State := { base with frame := f, frameLen := n }

/-- The state after a command's meaning. -/
def after (i : Instr) (s : State) : State :=
  match exec i s with
  | .next t => t
  | .fault _ => s
  | .refused _ => s

/-! ### Decoding: every constructor by a word written out from R81 and R84 (RSV, A, K, S, W, OP) -/

theorem test_decode_nop : decode 0b0000000000_000000000_0_0_0000000_0000 = .ok .nop := by decide
theorem test_decode_accClear : decode 0b0000000000_000000000_0_0_0000000_0001 = .ok .accClear := by decide
theorem test_decode_accPush : decode 0b0000000000_000000000_0_0_1000001_0010 = .ok (.accPush 65) := by decide
theorem test_decode_accPop : decode 0b0000000000_000000000_0_1_0000010_0011 = .ok (.accPop 2 true) := by decide
theorem test_decode_packWord : decode 0b0000000000_000000000_1_0_0000000_0100 = .ok (.packWord 1) := by decide
theorem test_decode_unpackWord : decode 0b0000000000_000000000_1_0_0000000_0101 = .ok (.unpackWord 1) := by decide
theorem test_decode_frameWrap : decode 0b0000000000_000000000_0_0_0000000_0110 = .ok .frameWrap := by decide
theorem test_decode_frameCheck : decode 0b0000000000_000000000_0_0_0000000_0111 = .ok .frameCheck := by decide
theorem test_decode_regRead : decode 0b0000000000_101111111_0_0_0000000_1000 = .ok (.regRead 0x17F) := by decide
theorem test_decode_regWrite : decode 0b0000000000_010100001_0_0_0000000_1001 = .ok (.regWrite 0x0A1) := by decide
theorem test_decode_errClear : decode 0b0000000000_000000000_0_0_0000000_1010 = .ok .errClear := by decide

/-- The illegal words of 95_test_vectors.md, sections 2.5 and 2.6. -/
theorem test_illegal_words :
    ([0x0000000B, 0x0000000F, 0x00400000, 0x00000010, 0x00001001, 0x00000842, 0x00001003, 0x00000814, 0x00002006,
      0x00104008, 0x00144008, 0x00300008, 0x00180009, 0x00184009, 0x00200009] : List CmdWord).all (fun cmd => decide ((decode cmd).toOption = none)) = true := by
  decide

theorem test_decodeTableWord : decodeTableWord 32 0x00000823 = some (.accPop 2 true) := by decide

/-! ### Well-formedness: an ill-formed term for each check of R87 -/

theorem test_illFormed_read_reserved : (Instr.regRead 0x082).wellFormed = false := by decide
theorem test_illFormed_write_reserved : (Instr.regWrite 0x180).wellFormed = false := by decide
theorem test_illFormed_write_readOnly : (Instr.regWrite 0x0C2).wellFormed = false := by decide

/-! ### One step of each command -/

/-- V-R1. -/
theorem test_nop : exec .nop { base with resp := 3, errstat := 0b00110 } = .next { base with resp := 0, errstat := 0b00110 } := rfl

/-- V-A25. -/
theorem test_accClear : (after .accClear (withAcc 0x17 6 0)).acc = ⟨0, 0⟩ := by decide

/-- V-A26. -/
theorem test_accPush : (after (.accPush 2) (withAcc 0x5 4 0xFFFFFFFFFFFFFFF7)).acc = ⟨0x17, 6⟩ := by decide

/-- V-A5. -/
theorem test_accPush_overflow :
    let t := after (.accPush 1) (withAcc 0x0123456789ABCDEF 64 1)
    t.resp = 1 ∧ t.errstat = 0b00001 ∧ t.acc = ⟨0x0123456789ABCDEF, 64⟩ := by decide

/-- V-A4. -/
theorem test_accPop_signed :
    let t := after (.accPop 2 true) (withAcc 0x3 2 0)
    t.dout = 0xFFFFFFFFFFFFFFFF ∧ t.acc = ⟨0, 0⟩ ∧ t.resp = 0 := by decide

/-- V-A16. -/
theorem test_accPop_underflow :
    let t := after (.accPop 5 false) (withAcc 0xA 4 0)
    t.resp = 2 ∧ t.errstat = 0b00010 ∧ t.acc = ⟨0xA, 4⟩ := by decide

set_option maxRecDepth 8000 in
/-- V-P1. -/
theorem test_packWord :
    (after (.packWord 0) (withFields 0 [5, 0x2A, -12, 31, -256, 511, -512, -1])).wordReg 0 = 0x16AD1F803FF007FF := by decide

set_option maxRecDepth 8000 in
/-- V-P6: the pad is bit 63. -/
theorem test_packWord_pad :
    (after (.packWord 1) (withFields 1 [-100, 255, -256, 3000, -40, 200, 0])).wordReg 1 = 0x671FF00BB8D8C800 := by decide

set_option maxRecDepth 8000 in
/-- V-U1. -/
theorem test_unpackWord :
    let t := after (.unpackWord 0) (withFrame frameS1 0)
    t.wordReg 0 = 0x16AD1F803FF007FF ∧ t.fieldReg 0 2 = 0xFFFFFFFFFFFFFFF4 ∧ t.fieldReg 0 5 = 0x1FF := by decide

set_option maxRecDepth 8000 in
/-- V-U5: the pad is ignored on decode. -/
theorem test_unpackWord_pad :
    let t := after (.unpackWord 1) (withFrame (frameS1.set 9 0xE7) 18)
    t.wordReg 1 = 0xE71FF00BB8D8C800 ∧ t.fieldReg 1 0 = 0xFFFFFFFFFFFFFF9C ∧ t.fieldReg 1 3 = 0xBB8 := by decide

/-- V-S1. -/
theorem test_frameWrap :
    let t := after .frameWrap ((base.setWord 0 0x16AD1F803FF007FF).setWord 1 0x671FF00BB8D8C800)
    t.frame = frameS1 ∧ t.frameLen = 18 := by decide

/-- V-S5: swapped markers. -/
theorem test_frameCheck_sync : (after .frameCheck (withFrame ((frameS1.set 0 0xD5).set 17 0x5E) 18)).errstat = 0b00100 := by decide

/-- V-S7: the length comes first. -/
theorem test_frameCheck_length : (after .frameCheck (withFrame (frameS1.set 0 0x00) 17)).resp = 4 := by decide

/-- V-R6: CONFIG. -/
theorem test_regRead_config : (after (.regRead 0x0C3) base).dout = 0x000007083F40D55E := by decide

/-- V-R8: LAYOUT1_3. -/
theorem test_regRead_layout : (after (.regRead 0x143) base).dout = 0x0C := by decide

/-- V-R3. -/
theorem test_regWrite_byte : (after (.regWrite 0x090) { base with din := 0x1FF }).frameByte 0 = 0xFF := by decide

/-- V-R10. -/
theorem test_regWrite_readOnly : (after (.regWrite 0x0C0) (withAcc 0x17 6 0)).resp = 5 := by decide

/-- V-R14. -/
theorem test_errClear : (after .errClear { base with errstat := 0b00110 }).errstat = 0 := by decide

/-- R89: an illegal word executes as raise IllegalCommand, in one step of the machine after reset. -/
theorem test_step_illegal : step (State.reset.withFetchWord 32 0x0000000B) =
    .next { State.reset with resp := 5, errstat := 0b10000 } := rfl

/-- A word of the opcode table runs as the first command after reset. -/
theorem test_step_first : step (State.reset.withFetchWord 32 0x00000006) = exec .frameWrap State.reset := rfl

/-- V-K1 to V-K6 of 95_test_vectors.md, section 2.7. -/
theorem test_construction :
    layoutFailure (referenceW2Widths.map (fun w => ⟨w, false⟩)) = some .fieldOverflow ∧ layoutFailure l2t.entries = none ∧
    layoutFailure [⟨64, true⟩] = none ∧ layoutFailure [⟨0, false⟩] = some .invalidWidth ∧
    layoutFailure [⟨65, false⟩] = some .invalidWidth ∧ layoutFailure [⟨32, false⟩, ⟨33, false⟩] = some .fieldOverflow := by decide

/-- P2 of 95_test_vectors.md, command 22's neighbour: `reg.wr FRAME_17, din=0xD5` assembles to 0x00142009. -/
theorem test_assembler_line : (AsmLine.regWr (.name (.frame 17)) 0xD5).command = ⟨0x00142009, 0xD5⟩ := by decide

/-- One clock cycle of a one-cycle command: the response is valid in the next cycle. -/
theorem test_port_one_cycle :
    let c : Clocked := { core := base, inFlight := none, rspValid := false }
    (c.tick 0 { rst := false, cmdValid := true, cmd := 0x42, din := 5 }).rspValid = true ∧
    (c.tick 0 { rst := false, cmdValid := true, cmd := 0x42, din := 5 }).core.acc = ⟨5, 4⟩ := by decide

/-! ### Witnesses: states and operands that meet the statements' hypotheses together -/

/-- The base state with one command presented. -/
def presented (cmd : CmdWord) (din : Word64) : State := base.present ⟨cmd, din⟩

/-- DecodeOfEncodeIsTheCommand: the checks of R87 pass at the ends of the address map. -/
theorem witness_wellFormed : (Instr.regRead 0x17F).wellFormed = true ∧ (Instr.regWrite 0x0B0).wellFormed = true := by decide

/-- EveryLegalWordSpellsExactlyOneCommand, StepExecutesTheDecodedCommand (legal). -/
theorem witness_legal_word : (presented 0x42 5).pending = .command ⟨0x42, 5⟩ :: [] ∧ decode 0x42 = .ok (.accPush 4) := by decide

/-- StepExecutesTheDecodedCommand (illegal, idle), CommandSequencesComposeInIssueOrder has no hypothesis. -/
theorem witness_illegal_word :
    (presented 0x0B 0).pending = .command ⟨0x0B, 0⟩ :: [] ∧ decode 0x0B = .error .reservedOpcode ∧ base.pending = [] := by decide

/-- IllegalWordsRaiseIllegalCommandOnly, by clause at the ends of each field and address range. -/
theorem witness_reserved_opcode : ([0xB, 0xF] : List CmdWord).all (fun cmd => decide (0xB ≤ (cmd.extractLsb' 0 4).toNat)) = true := by decide
theorem witness_reserved_bits : ([0x00400000, 0x80000000] : List CmdWord).all (fun cmd => decide (cmd.extractLsb' 22 10 ≠ 0)) = true := by decide
theorem witness_unused_none : ([0x00000010, 0x0020000A] : List CmdWord).all (fun cmd => decide ((cmd.extractLsb' 0 4).toNat ∈ [0x0, 0x1, 0x6, 0x7, 0xA] ∧ cmd.extractLsb' 4 18 ≠ 0)) = true := by decide
theorem witness_unused_push : ([0x00000802, 0x00200002] : List CmdWord).all (fun cmd => decide ((cmd.extractLsb' 0 4).toNat = 0x2 ∧ cmd.extractLsb' 11 11 ≠ 0)) = true := by decide
theorem witness_unused_pop : ([0x00001003, 0x00200003] : List CmdWord).all (fun cmd => decide ((cmd.extractLsb' 0 4).toNat = 0x3 ∧ cmd.extractLsb' 12 10 ≠ 0)) = true := by decide
theorem witness_unused_word : ([0x00000014, 0x00000805, 0x00002004, 0x00200005] : List CmdWord).all (fun cmd => decide ((cmd.extractLsb' 0 4).toNat ∈ [0x4, 0x5] ∧ (cmd.extractLsb' 4 8 ≠ 0 ∨ cmd.extractLsb' 13 9 ≠ 0))) = true := by decide
theorem witness_unused_register : ([0x00000018, 0x00001009] : List CmdWord).all (fun cmd => decide ((cmd.extractLsb' 0 4).toNat ∈ [0x8, 0x9] ∧ cmd.extractLsb' 4 9 ≠ 0)) = true := by decide
theorem witness_reserved_address :
    ([0x082, 0x08F, 0x0A2, 0x0AF, 0x0B1, 0x0BF, 0x0C4, 0x0FF, 0x180, 0x1FF] : List (BitVec 9)).all (fun a => decide (reservedAddress a)) = true := by decide
theorem witness_readOnly_address :
    ([0x0C0, 0x0C3, 0x100, 0x17F] : List (BitVec 9)).all (fun a => decide (readOnlyAddress a ∧ ¬ reservedAddress a)) = true := by decide

/-- FailuresArePreciseAndLeaveNoOtherTrace: a failing command is presented. -/
theorem witness_failing : (presented 0x43 0).pending = .command ⟨0x43, 0⟩ :: [] ∧ (issue ⟨0x43, 0⟩ base).resp = 2 := by decide

/-- ErrstatRecordsEveryFailureAndOnlyFailures: a success and a failure. -/
theorem witness_errstat_success : ∃ t, step (presented 0x0 0) = .next t ∧ t.resp = 0 ∧ decode 0x0 ≠ .ok .errClear :=
  ⟨_, rfl, by decide, by decide⟩
theorem witness_errstat_failure : ∃ t, step (presented 0x7 0) = .next t ∧ t.resp ≠ 0 := ⟨_, rfl, by decide⟩

/-- ErrClearAloneClearsTheSummary: a set bit and another command; a reset. -/
theorem witness_errstat_sticky : ∃ s t : State, s.pending = .command ⟨0x0, 0⟩ :: [] ∧ decode 0x0 ≠ .ok .errClear ∧ step s = .next t ∧
    s.errstat.getLsbD 4 = true :=
  ⟨{ presented 0x0 0 with errstat := 0b10000 }, _, rfl, by decide, rfl, rfl⟩

/-- ResetPutsEveryElementAtItsResetValue, ErrClearAloneClearsTheSummary (reset). -/
theorem witness_reset_event : ∃ s t : State, s.pending = .reset :: [] ∧ step s = .next t :=
  ⟨{ withAcc 5 4 0 with pending := [.reset] }, _, rfl, rfl⟩

/-- ConstructionConstantsNeverChange, EveryStepKeepsTheInvariant, EveryRunFromTheInvariantIsSafe. -/
theorem witness_invariant_step : ∃ t, (presented 0x42 5).Inv ∧ step (presented 0x42 5) = .next t := ⟨_, by decide, rfl⟩

/-- ConstructionAcceptsExactlyTheValidLayouts, by clause. -/
theorem witness_invalid_width : ∃ f ∈ ([⟨65, true⟩] : Layout), f.width < 1 ∨ 64 < f.width := by decide
theorem witness_sum_overflow : (∀ f ∈ ([⟨64, true⟩, ⟨1, true⟩] : Layout), 1 ≤ f.width ∧ f.width ≤ 64) ∧
    64 < (([⟨64, true⟩, ⟨1, true⟩] : Layout).map FieldSpec.width).sum := by decide
theorem witness_valid_layout : (∀ f ∈ ([⟨63, true⟩, ⟨1, true⟩] : Layout), 1 ≤ f.width ∧ f.width ≤ 64) ∧
    (([⟨63, true⟩, ⟨1, true⟩] : Layout).map FieldSpec.width).sum ≤ 64 := by decide

/-- ReferenceWordTwoLayoutIsRefused. -/
theorem witness_reference_layout :
    (referenceW2Widths.map (fun w => (⟨w, true⟩ : FieldSpec))).map FieldSpec.width = [12, 9, 9, 9, 12, 8, 8, 8] := by decide

/-- InvariantAtReset: a construction that succeeds. -/
theorem witness_construct : construct l2t.entries = .ok base := rfl

/-- ExtensionKeepsTheLowBitsAndFillsTheRest, MaskSelectsExactlyTheLowBits, FullAccumulatorPopsItsTopBits: the ends of the ranges. -/
theorem witness_width_range : (0 ≤ 64 ∧ 63 < 64) ∧ (64 ≤ 64 ∧ 0 < 64) := by decide

/-- AccPushAppendsTheLowBitsOfDin: its words, and the sums 65 and 64. -/
theorem witness_push : (0x00000402 : CmdWord) &&& 0xFFFFF80F = 0x2 ∧ 64 < (withAcc 0 1 0).acc.n.toNat + (64 : BitVec 7).toNat ∧
    (withAcc 0 0 0).acc.n.toNat + (64 : BitVec 7).toNat ≤ 64 := by decide

/-- AccPopReturnsTheOldestBits: its words, both failures, and W = n. -/
theorem witness_pop : (0x00000C03 : CmdWord) &&& 0xFFFFF00F = 0x3 ∧ 64 < (65 : BitVec 7).toNat ∧
    (withAcc 0xA 4 0).acc.n.toNat < (5 : BitVec 7).toNat ∧ (64 : BitVec 7).toNat ≤ 64 ∧
    (64 : BitVec 7).toNat ≤ (withAcc 0 64 0).acc.n.toNat := by decide

/-- PrimitivesKeepTheBitsAboveTheCountZero: a push and a pop that succeed. -/
theorem witness_primitives : (⟨0x17, 6⟩ : Accumulator).box.toNat < 2 ^ (⟨0x17, 6⟩ : Accumulator).n.toNat ∧
    (∃ a', accPush ⟨0x17, 6⟩ 1 58 = .ok a') ∧ ∃ a' r, accPop ⟨0x17, 6⟩ 6 true = .ok (a', r) := ⟨by decide, ⟨_, rfl⟩, _, _, rfl⟩

/-- AccumulatorIsAFirstInFirstOutBitQueue, PushedFieldsPopInPushOrder: a partly filled accumulator, filled to 64. -/
theorem witness_queue : (withAcc 0x17 6 0).acc.ok ∧ (withAcc 0x17 6 0).acc.n.toNat + (50 : BitVec 7).toNat + (8 : BitVec 7).toNat ≤ 64 ∧
    (6 : BitVec 7).toNat ≤ (withAcc 0x17 6 0).acc.n.toNat := by decide

/-- SignedValuesRoundTripAtEveryWidth: the least value at W = 1 and the greatest at W = 64. -/
theorem witness_signed : base.acc = Accumulator.empty ∧ -(2 : Int) ^ ((1 : BitVec 7).toNat - 1) ≤ -1 ∧
    (2 : Int) ^ 63 - 1 ≤ (2 : Int) ^ ((64 : BitVec 7).toNat - 1) - 1 := by decide

/-- OutOfRangeValuesAreTruncatedModuloTheWidth: the ends of the width range. -/
theorem witness_truncation : 1 ≤ 1 ∧ 1 ≤ 64 ∧ 64 ≤ 64 := by decide

/-- PackWordPlacesEveryFieldAtItsPosition: its words, the last field of word 1 and its last bit, the pad of L2T. -/
theorem witness_pack : (0x00001004 : CmdWord) &&& 0xFFFFEFFF = 0x4 ∧ (base.layout 0)[7]? = some ⟨11, true⟩ ∧ 10 < 11 ∧
    ((base.layout 1).map FieldSpec.width).sum ≤ 63 := by decide

/-- PackerIgnoresSignedness: two layouts that differ in signedness only. -/
theorem witness_signedness : ([⟨6, true⟩] : Layout).map FieldSpec.width = ([⟨6, false⟩] : Layout).map FieldSpec.width ∧
    ([⟨6, true⟩] : Layout) ≠ [⟨6, false⟩] := by decide

/-- UnpackWordRecoversWordAndFields: its words, the last payload byte, a used and an unused slot. -/
theorem witness_unpack : (0x00001005 : CmdWord) &&& 0xFFFFEFFF = 0x5 ∧ 7 < 8 ∧ (16 : Fin 18).val = 1 + 8 * (1 : Fin 2).val + 7 ∧
    (base.layout 1)[6]? = some ⟨8, false⟩ ∧ (base.layout 1)[7]? = none := by decide

/-- FrameCheckTestsLengthThenMarkers and MalformedFramesAreRecoverable, by clause. -/
theorem witness_check : base.frameLen ≠ 18 ∧ (withFrame frameS1 18).frameLen = 18 ∧ (withFrame frameS1 18).frameByte 0 = 0x5E ∧
    (withFrame frameS1 18).frameByte 17 = 0xD5 ∧ (withFrame (frameS1.set 17 0xD4) 18).frameByte 17 ≠ 0xD5 := by decide
theorem witness_malformed : ∃ t, exec .frameCheck base = .next t ∧ t.resp ≠ 0 ∧ (Instr.regRead 0x080).wellFormed = true :=
  ⟨_, rfl, by decide, by decide⟩

/-- PackWrapUnpackRestoresTheFields, EncodeThenDecodeRestoresTheSample: every field of the base state is in range. -/
theorem witness_in_range : base.fieldsInRange 0 ∧ base.fieldsInRange 1 := by
  have zero : ∀ f : FieldSpec, f.inRange 0 := by
    intro f
    unfold FieldSpec.inRange
    split
    · have h : (0 : Int) < 2 ^ (f.width - 1) := Int.pow_pos (by decide)
      have h0 : (0 : Word64).toInt = 0 := rfl
      omega
    · exact Nat.two_pow_pos f.width
  have reg : ∀ k i, base.fieldReg k i = 0 := by
    intro k i
    simp [base, State.fieldReg, State.bank, State.resetOf]
  exact ⟨fun i f _ => reg 0 i ▸ zero f, fun i f _ => reg 1 i ▸ zero f⟩

/-- RegReadReturnsTheAddressedRegister, RegWriteUpdatesTheAddressedRegister, RegisterReads...: their words and the ends of each row. -/
theorem witness_read_words : (0x002FE008 : CmdWord) &&& 0xFFC01FFF = 0x8 ∧ ¬ reservedAddress ((0x002FE008 : CmdWord).extractLsb' 13 9) := by decide
theorem witness_write_words : (0x00160009 : CmdWord) &&& 0xFFC01FFF = 0x9 ∧ ¬ reservedAddress ((0x00160009 : CmdWord).extractLsb' 13 9) ∧
    ¬ readOnlyAddress ((0x00160009 : CmdWord).extractLsb' 13 9) := by decide
theorem witness_rows : (0x000 : BitVec 9).toNat = 64 * (0 : Fin 2).val + (0 : Fin 64).val ∧
    (0x07F : BitVec 9).toNat = 64 * (1 : Fin 2).val + (63 : Fin 64).val ∧ (0x080 : BitVec 9).toNat = 0x080 + (0 : Fin 2).val ∧
    (0x081 : BitVec 9).toNat = 0x080 + (1 : Fin 2).val ∧ (0x090 : BitVec 9).toNat = 0x090 + (0 : Fin 18).val ∧
    (0x0A1 : BitVec 9).toNat = 0x090 + (17 : Fin 18).val ∧ (0x100 : BitVec 9).toNat = 0x100 + 64 * (0 : Fin 2).val + (0 : Fin 64).val ∧
    (0x17F : BitVec 9).toNat = 0x100 + 64 * (1 : Fin 2).val + (63 : Fin 64).val := by decide
theorem witness_write_read : ¬ reservedAddress 0x0B0 ∧ ¬ readOnlyAddress 0x0B0 ∧ ¬ reservedAddress 0x0C3 := by decide

/-- OnlySuccessfulPopsAndReadsChangeDout: a read that changes DOUT. -/
theorem witness_dout : ∃ t, step (presented 0x00186008 0) = .next t ∧ t.dout ≠ (presented 0x00186008 0).dout := ⟨_, rfl, by decide⟩

/-- OnlyPushAndRegWriteReadDin, FrameCommandsNeitherReadNorWriteAcc: PACK_WORD meets both. -/
theorem witness_packWord_class : (∀ w, Instr.packWord 1 ≠ .accPush w) ∧ (∀ a, Instr.packWord 1 ≠ .regWrite a) ∧
    ∃ k, Instr.packWord 1 = .packWord k := ⟨by simp, by simp, 1, rfl⟩

/-- RegistersChangeOnlyByTheirOwnCommands: each class of register does change. -/
theorem witness_changes : (after .accClear (withAcc 0x17 6 0)).acc ≠ (withAcc 0x17 6 0).acc ∧
    (after (.regWrite 0x07F) { base with din := 1 }).fieldReg 1 63 ≠ base.fieldReg 1 63 ∧
    (after (.regWrite 0x081) { base with din := 1 }).wordReg 1 ≠ base.wordReg 1 ∧
    (after .frameWrap base).frameByte 17 ≠ base.frameByte 17 ∧ (after .frameWrap base).frameLen ≠ base.frameLen := by decide

/-- FieldsWrFillsTheSlotsInOrder: a list of values, and another bank. -/
theorem witness_fieldsWr : ([1, -2, 3] : List Int).length ≤ 64 ∧ (1 : Fin 2) ≠ 0 := by decide

/-- AcceptedCommandsCompleteAfterAnyLatency: a command of two cycles. -/
theorem witness_port : ∃ (c : Clocked) (inp x : PortIn), (c.outputs inp).cmdReady = true ∧ inp.cmdValid = true ∧
    ([(0, x)] : List (Nat × PortIn)).length = 1 ∧ (∀ p ∈ [((0 : Nat), x)], p.2.rst = false) ∧ 0 < 1 ∧ x.rst = false :=
  ⟨⟨base, none, false⟩, ⟨false, true, 0x42, 5⟩, ⟨false, false, 0, 0⟩, rfl, rfl, rfl, by simp, by decide, rfl⟩

/-- ResetAbandonsTheCommandInFlight, IdleCyclesHoldAllState. -/
theorem witness_port_reset : ∃ (inp x : PortIn), inp.rst = true ∧ x.rst = false ∧ x.cmdValid = false :=
  ⟨⟨true, false, 0, 0⟩, ⟨false, false, 0, 0⟩, rfl, rfl, rfl⟩
theorem witness_port_idle : ∃ c : Clocked, c.inFlight = none := ⟨⟨base, none, false⟩, rfl⟩

end Sys2Proof.Tests
end

section
/-! The extensions of R14, from the one law `getLsbD_extend64` about both of them. -/

namespace Sys2Proof.Machine

/-- The bits of `sext_64` (R14): the sign bit w-1 fills what lies above the value, and a value of no bits has no sign bit. -/
theorem getLsbD_sext64 (w : Nat) (v : Word64) {i : Nat} (hi : i < 64) :
    (sext64 w v).getLsbD i = if i < w then v.getLsbD i else if w = 0 then false else v.getLsbD (w - 1) := by
  have hext : (sext64 w v).getLsbD i = if i < w then v.getLsbD i else (true && decide (0 < w) && v.getLsbD (w - 1)) :=
    getLsbD_extend64 true w v hi
  rw [hext]
  rcases Nat.eq_zero_or_pos w with rfl | hw
  · simp
  · simp [hw, Nat.ne_of_gt hw]

/-- Settles O20: `getLsbD_zext64` and `getLsbD_sext64` give the two halves. -/
theorem extensionKeepsTheLowBitsAndFillsTheRest : Obligations.ExtensionKeepsTheLowBitsAndFillsTheRest := by
  intro w v i _ hi
  constructor
  · by_cases h : i < w <;> simp [h]
  · exact getLsbD_sext64 w v hi

end Sys2Proof.Machine
end

section
/-! Everything a step can do (R18, R71), the register values at reset (R48), and the construction constants (R49). -/

namespace Sys2Proof.Machine

/-! ### Inversion of a step -/

/-- The state a successful command commits, before `RESP` becomes OK: one constructor per command, with the computations it made. -/
inductive Commits (s : State) : Instr → State → Prop
  | nop : Commits s .nop s
  | accClear : Commits s .accClear (s.setAcc Accumulator.empty)
  | accPush {w a} (push : accPush s.acc s.din w.toNat = .ok a) : Commits s (.accPush w) (s.setAcc a)
  | accPop {w sgn a v} (pop : accPop s.acc w.toNat sgn = .ok (a, v)) : Commits s (.accPop w sgn) ((s.setAcc a).setDout v)
  | packWord {k v} (packed : packedWord (s.layout k) (s.bank k) = .ok v) : Commits s (.packWord k) (s.setWord k v)
  | unpackWord {k v b} (unpacked : unpackedWord (s.layout k) (s.payload k) (s.bank k) = .ok (v, b)) :
      Commits s (.unpackWord k) ((s.setWord k v).setBank k b)
  | frameWrap {f f'} (word0 : serializeWord 0 (s.wordReg 0) (s.frame.set 0 syncStart) = .ok f)
      (word1 : serializeWord 1 (s.wordReg 1) f = .ok f') :
      Commits s .frameWrap ((s.setFrame (f'.set 17 syncEnd)).setFrameLen frameBytes)
  | frameCheck (len : s.frameLen = frameBytes) (sync : s.frameByte 0 = syncStart ∧ s.frameByte 17 = syncEnd) : Commits s .frameCheck s
  | regRead {a r} (reg : regAt a = some r) : Commits s (.regRead a) (s.setDout (memRead s r))
  | regWrite {a r} (reg : regAt a = some r) (writable : r.writable = true) : Commits s (.regWrite a) (memWrite s r s.din)
  | errClear : Commits s .errClear (s.setErrstat 0)

theorem except_bind_eq_ok {ε α β : Type} {x : Except ε α} {f : α → Except ε β} {b : β} (h : (x >>= f) = .ok b) :
    ∃ a, x = .ok a ∧ f a = .ok b := by
  cases x with
  | ok a => exact ⟨a, rfl, h⟩
  | error e => cases h

/-- A computation that commits only what `P` allows ends the command by its failure or by one of those commits (R18). -/
theorem respond_commits {s : State} {r : Except Err State} {P : State → Prop} (h : ∀ u, r = .ok u → P u) :
    (∃ e, respond s r = .next (s.raise e)) ∨ ∃ u, P u ∧ respond s r = .next (u.setResp respOk) := by
  obtain ⟨u, hu, hs⟩ | ⟨e, _, hs⟩ := respond_cases s r
  · exact .inr ⟨u, h u hu, hs⟩
  · exact .inl ⟨e, hs⟩

/-- Everything executing a command can do (R18): fail from the state before it, or commit its own writes. -/
theorem exec_cases (i : Instr) (s : State) :
    (∃ e, exec i s = .next (s.raise e)) ∨ ∃ u, Commits s i u ∧ exec i s = .next (u.setResp respOk) := by
  cases i with
  | nop => exact .inr ⟨_, .nop, rfl⟩
  | accClear => exact .inr ⟨_, .accClear, rfl⟩
  | errClear => exact .inr ⟨_, .errClear, rfl⟩
  | accPush w =>
    refine respond_commits fun u hu => ?_
    obtain ⟨a, ha, ⟨⟩⟩ := except_bind_eq_ok hu
    exact .accPush ha
  | accPop w sgn =>
    refine respond_commits fun u hu => ?_
    obtain ⟨⟨a, v⟩, ha, ⟨⟩⟩ := except_bind_eq_ok hu
    exact .accPop ha
  | packWord k =>
    refine respond_commits fun u hu => ?_
    obtain ⟨v, hv, ⟨⟩⟩ := except_bind_eq_ok hu
    exact .packWord hv
  | unpackWord k =>
    refine respond_commits fun u hu => ?_
    obtain ⟨⟨v, b⟩, hv, ⟨⟩⟩ := except_bind_eq_ok hu
    exact .unpackWord hv
  | frameWrap =>
    simp only [exec, execFrameWrap]
    refine respond_commits fun u hu => ?_
    obtain ⟨f, hf, hu⟩ := except_bind_eq_ok hu
    obtain ⟨f', hf', ⟨⟩⟩ := except_bind_eq_ok hu
    exact .frameWrap hf hf'
  | frameCheck =>
    refine respond_commits fun u hu => ?_
    split at hu
    · cases hu
    next hlen =>
      split at hu
      · cases hu
      next hsync =>
        cases hu
        exact .frameCheck (not_not.mp hlen) (by simpa using hsync)
  | regRead a =>
    refine respond_commits fun u hu => ?_
    split at hu
    · cases hu
    next r hr =>
      cases hu
      exact .regRead hr
  | regWrite a =>
    refine respond_commits fun u hu => ?_
    split at hu
    · cases hu
    next r hr =>
      split at hu
      next hw =>
        cases hu
        exact .regWrite hr hw
      · cases hu

/-- Everything a step can do (R71): hold all state, reset, fail the accepted command, or commit what the decoded command writes. -/
theorem step_cases {s t : State} (h : step s = .next t) :
    (s.pending = [] ∧ t = s) ∨
    (∃ rest, s.pending = .reset :: rest ∧ t = s.takeReset rest) ∨
    (∃ c rest e, s.pending = .command c :: rest ∧ t = (s.accept c rest).raise e) ∨
    (∃ c rest i u, s.pending = .command c :: rest ∧ decode c.cmd = .ok i ∧ Commits (s.accept c rest) i u ∧ t = u.setResp respOk) := by
  cases hp : s.pending with
  | nil =>
    cases (step_idle hp).symm.trans h
    exact .inl ⟨rfl, rfl⟩
  | cons event rest =>
    right
    cases event with
    | reset =>
      cases (step_reset hp).symm.trans h
      exact .inl ⟨rest, rfl, rfl⟩
    | command c =>
      right
      rw [step_command hp] at h
      cases hd : decode c.cmd with
      | error e =>
        cases (runWord_error hd _).symm.trans h
        exact .inl ⟨c, rest, _, rfl, rfl⟩
      | ok i =>
        rw [runWord_ok hd] at h
        obtain ⟨e, he⟩ | ⟨u, hu, he⟩ := exec_cases i (s.accept c rest)
        · cases he.symm.trans h
          exact .inl ⟨c, rest, e, rfl, rfl⟩
        · cases he.symm.trans h
          exact .inr ⟨c, rest, i, u, rfl, hd, hu, rfl⟩

/-! ### The construction constants -/

@[simp] theorem State.accept_layoutW2 (s : State) (c : Command) (rest : List HostEvent) : (s.accept c rest).layoutW2 = s.layoutW2 := rfl

@[simp] theorem State.takeReset_layoutW2 (s : State) (rest : List HostEvent) : (s.takeReset rest).layoutW2 = s.layoutW2 := rfl

@[simp] theorem memWrite_layoutW2 (s : State) (r : Reg) (v : Word64) : (memWrite s r v).layoutW2 = s.layoutW2 := by
  rw [memWrite_frame]

/-- No command writes the word-2 layout (R49). -/
theorem Commits.layoutW2_eq {s u : State} {i : Instr} (h : Commits s i u) : u.layoutW2 = s.layoutW2 := by
  cases h <;> simp

/-- Every step keeps the word-2 layout, reset included (R49). -/
theorem step_layoutW2 {s t : State} (h : step s = .next t) : t.layoutW2 = s.layoutW2 := by
  obtain ⟨_, rfl⟩ | ⟨rest, _, rfl⟩ | ⟨c, rest, e, _, rfl⟩ | ⟨c, rest, i, u, _, _, hu, rfl⟩ := step_cases h
  · rfl
  · simp
  · simp
  · simpa using hu.layoutW2_eq

/-- Settles O14: both layouts, and `CONFIG` with them, depend on the word-2 layout alone, which `step_layoutW2` keeps. -/
theorem constructionConstantsNeverChange : Obligations.ConstructionConstantsNeverChange := by
  intro s t h
  have hlayout : ∀ k, t.layout k = s.layout k := State.layout_congr (step_layoutW2 h)
  refine ⟨hlayout, ?_⟩
  simp only [memRead, hlayout]

/-! ### Reset -/

theorem State.resetOf_atReset (l : ValidLayout) : (State.resetOf l).atReset := by
  refine ⟨rfl, rfl, fun k i => ?_, fun k => ?_, fun j => ?_, rfl, rfl, rfl, rfl⟩
  · simp [State.fieldReg, State.bank, State.resetOf]
  · simp [State.wordReg, State.resetOf]
  · simp [State.frameByte, State.resetOf]

/-- The inputs a reset leaves to the host are no elements of R48. -/
theorem State.takeReset_atReset (s : State) (rest : List HostEvent) : (s.takeReset rest).atReset :=
  State.resetOf_atReset s.layoutW2

/-- Settles O13: both states hold what `State.resetOf` gives every element of R48. -/
theorem resetPutsEveryElementAtItsResetValue : Obligations.ResetPutsEveryElementAtItsResetValue :=
  ⟨State.resetOf_atReset _, fun s rest h => ⟨_, step_reset h, s.takeReset_atReset rest⟩⟩

end Sys2Proof.Machine
end

section
/-! What the host has queued is no operand of a command, so a queue of commands runs as the single transactions in order (R71). -/

namespace Sys2Proof.Machine

/-- The state with `q` for the host's later events. -/
def State.withPending (s : State) (q : List HostEvent) : State := { s with pending := q }

theorem memWrite_withPending (s : State) (r : Reg) (v : Word64) (q : List HostEvent) :
    memWrite (s.withPending q) r v = (memWrite s r v).withPending q := by
  cases r <;> rfl

theorem respond_withPending (s : State) (r : Except Err State) (q : List HostEvent) {t : State} (h : respond s r = .next t) :
    respond (s.withPending q) ((·.withPending q) <$> r) = .next (t.withPending q) := by
  obtain ⟨u, rfl, hu⟩ | ⟨e, rfl, he⟩ := respond_cases s r
  · cases hu.symm.trans h
    rfl
  · cases he.symm.trans h
    rfl

/-- Two computations with one first part differ in the queue alone, if what they do with its result does. -/
theorem bind_withPending {α : Type} (x : Except Err α) {f f' : α → Except Err State} (q : List HostEvent)
    (h : ∀ a, f' a = (·.withPending q) <$> f a) : (x >>= f') = (·.withPending q) <$> (x >>= f) := by
  rw [map_bind, funext h]

/-- A command computes the same writes whatever is queued after it, and its writes leave the queue alone. -/
theorem exec_responds_withPending (i : Instr) (s : State) (q : List HostEvent) :
    ∃ r, exec i s = respond s r ∧ exec i (s.withPending q) = respond (s.withPending q) ((·.withPending q) <$> r) := by
  cases i with
  | nop => exact ⟨.ok s, rfl, rfl⟩
  | accClear => exact ⟨.ok (s.setAcc Accumulator.empty), rfl, rfl⟩
  | errClear => exact ⟨.ok (s.setErrstat 0), rfl, rfl⟩
  | accPush w => exact ⟨_, rfl, congrArg (respond _) (bind_withPending _ q fun _ => rfl)⟩
  | accPop w sgn => exact ⟨_, rfl, congrArg (respond _) (bind_withPending _ q fun _ => rfl)⟩
  | packWord k => exact ⟨_, rfl, congrArg (respond _) (bind_withPending _ q fun _ => rfl)⟩
  | unpackWord k => exact ⟨_, rfl, congrArg (respond _) (bind_withPending _ q fun _ => rfl)⟩
  | frameWrap =>
    simp only [exec, execFrameWrap]
    exact ⟨_, rfl, congrArg (respond _) (bind_withPending _ q fun _ => bind_withPending _ q fun _ => rfl)⟩
  | frameCheck =>
    refine ⟨_, rfl, congrArg (respond _) ?_⟩
    rw [apply_ite (Functor.map _), apply_ite (Functor.map _)]
    rfl
  | regRead a =>
    refine ⟨_, rfl, congrArg (respond _) ?_⟩
    cases regAt a <;> rfl
  | regWrite a =>
    refine ⟨_, rfl, congrArg (respond _) ?_⟩
    cases regAt a with
    | none => rfl
    | some r =>
      simp only [memWrite_withPending]
      cases r.writable <;> rfl

theorem runWord_withPending {cmd : CmdWord} {s t : State} (h : runWord cmd s = .next t) (q : List HostEvent) :
    runWord cmd (s.withPending q) = .next (t.withPending q) := by
  cases hd : decode cmd with
  | ok i =>
    rw [runWord_ok hd] at h ⊢
    obtain ⟨r, hr, hq⟩ := exec_responds_withPending i s q
    rw [hq, respond_withPending s r q (hr.symm.trans h)]
  | error e =>
    cases (runWord_error hd s).symm.trans h
    exact runWord_error hd _

/-- A step on a presented command is the command's transaction, whatever is queued after it (R71, R80). -/
theorem step_withPending_command (c : Command) (s : State) (q : List HostEvent) :
    step (s.withPending (.command c :: q)) = .next ((issue c s).withPending q) := by
  obtain ⟨t, ht⟩ := runWord_next c.cmd { s with din := c.din }
  rw [issue_eq ht, step_command rfl]
  exact runWord_withPending ht q

/-- A transaction takes its own command from the queue and nothing else. -/
theorem issue_pending (c : Command) (s : State) : (issue c s).pending = s.pending := by
  have hstep : step (s.present c) = .next ((issue c s).withPending s.pending) := step_withPending_command c s s.pending
  rw [issue, hstep]
  rfl

theorem core_run_succ {s t : State} (k : Nat) (h : step s = .next t) :
    Host.Core.run Sys2Proof.core (k + 1) s = Host.Core.run Sys2Proof.core k t := by
  have hcore : Sys2Proof.core.step s = .next t := h
  simp only [Host.Core.run, hcore]

/-- Settles O12, by induction on the commands: the first step is the first command's transaction, and it leaves the others queued. -/
theorem commandSequencesComposeInIssueOrder : Obligations.CommandSequencesComposeInIssueOrder := by
  intro cs
  induction cs with
  | nil => exact fun _ => rfl
  | cons c cs ih =>
    intro s
    have hrun := core_run_succ cs.length (step_withPending_command c s (cs.map HostEvent.command ++ s.pending))
    refine hrun.trans ?_
    rw [← issue_pending c s]
    exact ih (issue c s)

end Sys2Proof.Machine
end

section
/-! The decoder row by row (R84, R89), and what makes a word illegal (R85 to R87). -/

namespace Sys2Proof

open Laws.RowMatch (opOf)

/-! ### Legal words -/

theorem decode_eq_ok_iff {cmd : CmdWord} {i : Instr} :
    decode cmd = .ok i ↔ ∃ r ∈ opcodeMap, cmd &&& r.mask = r.pattern ∧ operandsOf r.op cmd = .ok i := by
  constructor
  · intro h
    obtain ⟨r, hr, hsel, hd⟩ | ⟨_, hd⟩ := decode_cases cmd
    · exact ⟨r, hr, hsel, hd.symm.trans h⟩
    · cases hd.symm.trans h
  · rintro ⟨r, hr, hsel, hi⟩
    have hselects : r.selects cmd = true := by simpa [OpRow.selects] using hsel
    exact (decode_of_selects hr hselects).trans hi

/-- A row gives only commands of its own mnemonic. -/
theorem opOf_of_operandsOf {op : Op} {cmd : CmdWord} {i : Instr} (h : operandsOf op cmd = .ok i) : opOf i = op := by
  cases op with
  | regRead =>
    simp only [operandsOf] at h
    split at h <;> cases h
    rfl
  | regWrite =>
    simp only [operandsOf] at h
    split at h
    · cases h
      rfl
    · split at h <;> cases h
  | _ =>
    cases h
    rfl

/-- A command comes from its own row of R84 and from no other, with what the row makes of the fields. -/
theorem decode_eq_ok_iff_row {r : OpRow} (hr : r ∈ opcodeMap) {cmd : CmdWord} {i : Instr} (hop : opOf i = r.op) {P : Prop}
    (hP : operandsOf r.op cmd = .ok i ↔ P) : decode cmd = .ok i ↔ cmd &&& r.mask = r.pattern ∧ P := by
  rw [decode_eq_ok_iff, ← hP]
  constructor
  · rintro ⟨r', hr', hsel, hi⟩
    have hinj : ∀ r ∈ opcodeMap, ∀ r' ∈ opcodeMap, r.op = r'.op → r = r' := by decide
    obtain rfl : r = r' := hinj r hr r' hr' (hop.symm.trans (opOf_of_operandsOf hi))
    exact ⟨hsel, hi⟩
  · exact fun ⟨hsel, hi⟩ => ⟨r, hr, hsel, hi⟩

/-- A row without operands gives its command to every word it selects. -/
theorem decode_eq_ok_iff_selects {r : OpRow} (hr : r ∈ opcodeMap) {cmd : CmdWord} {i : Instr} (hop : opOf i = r.op)
    (hi : operandsOf r.op cmd = .ok i) : decode cmd = .ok i ↔ cmd &&& r.mask = r.pattern :=
  (decode_eq_ok_iff_row hr hop Iff.rfl).trans (and_iff_left hi)

/-- The K field is bit 12 as a number (R81). -/
theorem fieldK_val (cmd : CmdWord) : (fieldK cmd).val = (cmd.extractLsb' 12 1).toNat := by
  have hbit : cmd.extractLsb' 12 1 = BitVec.ofBool (cmd.getLsbD 12) := by
    apply BitVec.eq_of_getLsbD_eq
    intro i hi
    obtain rfl : i = 0 := by omega
    simp
  rw [hbit, fieldK]
  cases cmd.getLsbD 12 <;> rfl

theorem operandsOf_accPush_iff {cmd : CmdWord} {w : BitVec 7} : operandsOf .accPush cmd = .ok (.accPush w) ↔ w = cmd.extractLsb' 4 7 := by
  simp [operandsOf, fieldW, eq_comm]

theorem operandsOf_accPop_iff {cmd : CmdWord} {w : BitVec 7} {sgn : Bool} :
    operandsOf .accPop cmd = .ok (.accPop w sgn) ↔ w = cmd.extractLsb' 4 7 ∧ sgn = cmd.getLsbD 11 := by
  simp [operandsOf, fieldW, fieldS, eq_comm]

theorem operandsOf_packWord_iff {cmd : CmdWord} {k : Fin 2} :
    operandsOf .packWord cmd = .ok (.packWord k) ↔ k.val = (cmd.extractLsb' 12 1).toNat := by
  rw [← fieldK_val]
  simp [operandsOf, Fin.ext_iff, eq_comm]

theorem operandsOf_unpackWord_iff {cmd : CmdWord} {k : Fin 2} :
    operandsOf .unpackWord cmd = .ok (.unpackWord k) ↔ k.val = (cmd.extractLsb' 12 1).toNat := by
  rw [← fieldK_val]
  simp [operandsOf, Fin.ext_iff, eq_comm]

theorem operandsOf_regRead_iff {cmd : CmdWord} {a : BitVec 9} :
    operandsOf .regRead cmd = .ok (.regRead a) ↔ a = cmd.extractLsb' 13 9 ∧ ¬ Machine.reservedAddress a := by
  rw [← readableAddress_iff]
  simp only [operandsOf]
  constructor
  · intro h
    split at h
    next hread =>
      cases h
      exact ⟨rfl, hread⟩
    · cases h
  · rintro ⟨rfl, hread⟩
    exact if_pos hread

theorem operandsOf_regWrite_iff {cmd : CmdWord} {a : BitVec 9} :
    operandsOf .regWrite cmd = .ok (.regWrite a) ↔
      a = cmd.extractLsb' 13 9 ∧ ¬ Machine.reservedAddress a ∧ ¬ Machine.readOnlyAddress a := by
  rw [← writableAddress_iff]
  simp only [operandsOf]
  constructor
  · intro h
    split at h
    next hwrite =>
      cases h
      exact ⟨rfl, hwrite⟩
    · split at h <;> cases h
  · rintro ⟨rfl, hwrite⟩
    exact if_pos hwrite

/-- Settles O4, row by row of R84: each clause is `decode_eq_ok_iff_row` at its row, with what `operandsOf` makes of the fields. -/
theorem decoderFollowsTheOpcodeMap : Obligations.DecoderFollowsTheOpcodeMap := by
  intro cmd
  refine ⟨?nop, ?accClear, fun w => ?accPush, fun w sgn => ?accPop, fun k => ?packWord, fun k => ?unpackWord, ?frameWrap, ?frameCheck,
    fun a => ?regRead, fun a => ?regWrite, ?errClear⟩
  case nop => exact decode_eq_ok_iff_selects (r := ⟨.nop, 0x0, 0xFFFFFFFF⟩) (by decide) rfl rfl
  case accClear => exact decode_eq_ok_iff_selects (r := ⟨.accClear, 0x1, 0xFFFFFFFF⟩) (by decide) rfl rfl
  case accPush => exact decode_eq_ok_iff_row (r := ⟨.accPush, 0x2, 0xFFFFF80F⟩) (by decide) rfl operandsOf_accPush_iff
  case accPop => exact decode_eq_ok_iff_row (r := ⟨.accPop, 0x3, 0xFFFFF00F⟩) (by decide) rfl operandsOf_accPop_iff
  case packWord => exact decode_eq_ok_iff_row (r := ⟨.packWord, 0x4, 0xFFFFEFFF⟩) (by decide) rfl operandsOf_packWord_iff
  case unpackWord => exact decode_eq_ok_iff_row (r := ⟨.unpackWord, 0x5, 0xFFFFEFFF⟩) (by decide) rfl operandsOf_unpackWord_iff
  case frameWrap => exact decode_eq_ok_iff_selects (r := ⟨.frameWrap, 0x6, 0xFFFFFFFF⟩) (by decide) rfl rfl
  case frameCheck => exact decode_eq_ok_iff_selects (r := ⟨.frameCheck, 0x7, 0xFFFFFFFF⟩) (by decide) rfl rfl
  case regRead => exact decode_eq_ok_iff_row (r := ⟨.regRead, 0x8, 0xFFC01FFF⟩) (by decide) rfl operandsOf_regRead_iff
  case regWrite => exact decode_eq_ok_iff_row (r := ⟨.regWrite, 0x9, 0xFFC01FFF⟩) (by decide) rfl operandsOf_regWrite_iff
  case errClear => exact decode_eq_ok_iff_selects (r := ⟨.errClear, 0xA, 0xFFFFFFFF⟩) (by decide) rfl rfl

/-! ### Illegal words -/

/-- A field under the ones of a row's mask holds what the row's pattern holds there. -/
theorem extractLsb'_of_and_eq {cmd m p : CmdWord} (h : cmd &&& m = p) {lo n : Nat} (hm : m.extractLsb' lo n = BitVec.allOnes n) :
    cmd.extractLsb' lo n = p.extractLsb' lo n := by
  rw [← h, BitVec.extractLsb'_and, hm, BitVec.and_allOnes]

/-- A word is illegal if every row of its opcode either does not select it or refuses its operands. -/
theorem decode_error_of_rows {cmd : CmdWord}
    (h : ∀ r ∈ opcodeMap, r.pattern.extractLsb' 0 4 = cmd.extractLsb' 0 4 → cmd &&& r.mask = r.pattern → ∃ e, operandsOf r.op cmd = .error e) :
    ∃ e, decode cmd = .error e := by
  obtain ⟨r, hr, hsel, hd⟩ | ⟨_, hd⟩ := decode_cases cmd
  · have hmask : ∀ r ∈ opcodeMap, r.mask.extractLsb' 0 4 = BitVec.allOnes 4 := by decide
    obtain ⟨e, he⟩ := h r hr (extractLsb'_of_and_eq hsel (hmask r hr)).symm hsel
    exact ⟨e, hd.trans he⟩
  · exact ⟨_, hd⟩

/-- R86: no row has an opcode from 0xB on. -/
theorem decode_error_of_reserved_opcode {cmd : CmdWord} (hop : 0xB ≤ (cmd.extractLsb' 0 4).toNat) : ∃ e, decode cmd = .error e := by
  refine decode_error_of_rows fun r hr hrow _ => ?_
  have hlt : ∀ r ∈ opcodeMap, (r.pattern.extractLsb' 0 4).toNat < 0xB := by decide
  have := hlt r hr
  rw [hrow] at this
  omega

/-- R85: a field that the rows of a class `P` of opcodes fix at 0 is 0 in every legal word of the class. -/
theorem decode_error_of_nonzero_field {cmd : CmdWord} (P : Nat → Prop) {lo n : Nat}
    (hzero : ∀ r ∈ opcodeMap, P (r.pattern.extractLsb' 0 4).toNat →
      r.mask.extractLsb' lo n = BitVec.allOnes n ∧ r.pattern.extractLsb' lo n = 0)
    (hop : P (cmd.extractLsb' 0 4).toNat) (hfield : cmd.extractLsb' lo n ≠ 0) : ∃ e, decode cmd = .error e := by
  refine decode_error_of_rows fun r hr hrow hsel => ?_
  obtain ⟨hmask, hpattern⟩ := hzero r hr (hrow ▸ hop)
  exact absurd ((extractLsb'_of_and_eq hsel hmask).trans hpattern) hfield

theorem operandsOf_regRead_error {cmd : CmdWord} (h : Machine.reservedAddress (cmd.extractLsb' 13 9)) :
    ∃ e, operandsOf .regRead cmd = .error e := by
  have hread : ¬ Machine.readableAddress (fieldA cmd) = true := fun hr => (readableAddress_iff _).mp hr h
  exact ⟨_, if_neg hread⟩

theorem operandsOf_regWrite_error {cmd : CmdWord}
    (h : Machine.reservedAddress (cmd.extractLsb' 13 9) ∨ Machine.readOnlyAddress (cmd.extractLsb' 13 9)) :
    ∃ e, operandsOf .regWrite cmd = .error e := by
  have hwrite : ¬ Machine.writableAddress (fieldA cmd) = true := fun hw =>
    not_or.mpr ((writableAddress_iff _).mp hw) h
  simp only [operandsOf, if_neg hwrite]
  split <;> exact ⟨_, rfl⟩

/-- R87: neither register command may name a reserved address. -/
theorem decode_error_of_reservedAddress {cmd : CmdWord} (hop : (cmd.extractLsb' 0 4).toNat ∈ [0x8, 0x9])
    (h : Machine.reservedAddress (cmd.extractLsb' 13 9)) : ∃ e, decode cmd = .error e := by
  refine decode_error_of_rows fun r hr hrow _ => ?_
  have hops : ∀ r ∈ opcodeMap, (r.pattern.extractLsb' 0 4).toNat ∈ [0x8, 0x9] → r.op = .regRead ∨ r.op = .regWrite := by decide
  obtain hread | hwrite := hops r hr (hrow ▸ hop)
  · exact hread ▸ operandsOf_regRead_error h
  · exact hwrite ▸ operandsOf_regWrite_error (.inl h)

/-- R87: REG_WRITE may not name a read-only register. -/
theorem decode_error_of_readOnlyAddress {cmd : CmdWord} (hop : (cmd.extractLsb' 0 4).toNat = 0x9)
    (h : Machine.readOnlyAddress (cmd.extractLsb' 13 9)) : ∃ e, decode cmd = .error e := by
  refine decode_error_of_rows fun r hr hrow _ => ?_
  have hops : ∀ r ∈ opcodeMap, (r.pattern.extractLsb' 0 4).toNat = 0x9 → r.op = .regWrite := by decide
  rw [hops r hr (hrow ▸ hop)]
  exact operandsOf_regWrite_error (.inr h)

end Sys2Proof

namespace Sys2Proof.Machine

/-- The one failure operation of the model is the effect R221 and R236 give a response code. -/
theorem State.raise_eq_failed (s : State) (e : Err) : s.raise e = s.failed e.code.toNat := by
  cases e <;> rfl

/-- R89: a presented word that does not decode raises IllegalCommand, code 5. -/
theorem step_illegal {s : State} {c : Command} {rest : List HostEvent} {e : DecodeError} (hp : s.pending = .command c :: rest)
    (hd : decode c.cmd = .error e) : step s = .next (({ s with din := c.din, pending := rest } : State).failed 5) := by
  rw [step_command hp, runWord_error hd, State.raise_eq_failed]
  rfl

/-- Settles O5: each class of illegal words fails to decode, and `step_illegal` says what the step then does. -/
theorem illegalWordsRaiseIllegalCommandOnly : Obligations.IllegalWordsRaiseIllegalCommandOnly := by
  intro s c rest hp op a hillegal
  obtain ⟨e, hd⟩ : ∃ e, decode c.cmd = .error e := by
    obtain hop | hrsv | ⟨hop, hf⟩ | ⟨hop, hf⟩ | ⟨hop, hf⟩ | ⟨hop, hf | hf⟩ | ⟨hop, hf⟩ | ⟨hop, ha⟩ | ⟨hop, ha⟩ := hillegal
    · exact decode_error_of_reserved_opcode hop
    · exact decode_error_of_nonzero_field (fun _ => True) (by decide) trivial hrsv
    · exact decode_error_of_nonzero_field (· ∈ [0x0, 0x1, 0x6, 0x7, 0xA]) (by decide) hop hf
    · exact decode_error_of_nonzero_field (· = 0x2) (by decide) hop hf
    · exact decode_error_of_nonzero_field (· = 0x3) (by decide) hop hf
    · exact decode_error_of_nonzero_field (· ∈ [0x4, 0x5]) (by decide) hop hf
    · exact decode_error_of_nonzero_field (· ∈ [0x4, 0x5]) (by decide) hop hf
    · exact decode_error_of_nonzero_field (· ∈ [0x8, 0x9]) (by decide) hop hf
    · exact decode_error_of_reservedAddress hop ha
    · exact decode_error_of_readOnlyAddress hop ha
  exact step_illegal hp hd

end Sys2Proof.Machine
end

section
/-! The accumulator commands and primitives (40_accumulator.md): their effects (R112 to R115), the extension of a popped value (R117,
R120), and byte order (R118). -/

namespace Sys2Proof.Machine

/-! ### The commands ACC_CLEAR, ACC_PUSH and ACC_POP -/

/-- Settles O22: the row of ACC_CLEAR fixes every bit of the word, and its meaning commits the cleared accumulator. -/
theorem accClearEmptiesTheAccumulator : Obligations.AccClearEmptiesTheAccumulator := by
  refine ⟨fun cmd => ?_, fun _ => rfl⟩
  have hrow : decode cmd = .ok .accClear ↔ cmd &&& BitVec.allOnes 32 = 0x1 :=
    decode_eq_ok_iff_selects (r := ⟨.accClear, 0x1, 0xFFFFFFFF⟩) (by decide) rfl rfl
  rwa [BitVec.and_allOnes] at hrow

theorem decode_accPush_iff {cmd : CmdWord} {w : BitVec 7} :
    decode cmd = .ok (.accPush w) ↔ cmd &&& 0xFFFFF80F = 0x2 ∧ w = cmd.extractLsb' 4 7 :=
  decode_eq_ok_iff_row (r := ⟨.accPush, 0x2, 0xFFFFF80F⟩) (by decide) rfl operandsOf_accPush_iff

theorem decode_accPop_iff {cmd : CmdWord} {w : BitVec 7} {sgn : Bool} :
    decode cmd = .ok (.accPop w sgn) ↔ cmd &&& 0xFFFFF00F = 0x3 ∧ w = cmd.extractLsb' 4 7 ∧ sgn = cmd.getLsbD 11 :=
  decode_eq_ok_iff_row (r := ⟨.accPop, 0x3, 0xFFFFF00F⟩) (by decide) rfl operandsOf_accPop_iff

theorem exec_accPush_of_ok {w : BitVec 7} {s : State} {a : Accumulator} (h : accPush s.acc s.din w.toNat = .ok a) :
    exec (.accPush w) s = .next ((s.setAcc a).setResp respOk) := by
  simp [exec, execAccPush, h]

theorem exec_accPush_of_error {w : BitVec 7} {s : State} {e : Err} (h : accPush s.acc s.din w.toNat = .error e) :
    exec (.accPush w) s = .next (s.failed e.code.toNat) := by
  simp [exec, execAccPush, h, State.raise_eq_failed]

theorem exec_accPop_of_ok {w : BitVec 7} {sgn : Bool} {s : State} {a : Accumulator} {r : Word64}
    (h : accPop s.acc w.toNat sgn = .ok (a, r)) : exec (.accPop w sgn) s = .next (((s.setAcc a).setDout r).setResp respOk) := by
  simp [exec, execAccPop, h]

theorem exec_accPop_of_error {w : BitVec 7} {sgn : Bool} {s : State} {e : Err} (h : accPop s.acc w.toNat sgn = .error e) :
    exec (.accPop w sgn) s = .next (s.failed e.code.toNat) := by
  simp [exec, execAccPop, h, State.raise_eq_failed]

/-- An accumulator is its box with its count, whichever way the count is computed. -/
theorem Accumulator.eq_mk_of_toNat {a : Accumulator} {m : Nat} (h : a.n.toNat = m) : a = ⟨a.box, BitVec.ofNat 7 m⟩ := by
  rw [← h, BitVec.ofNat_toNat, BitVec.setWidth_eq]

/-- Settles O23: `decode_accPush_iff` gives the words, and the two cases of `accPush_cases` the failure and the effect. -/
theorem accPushAppendsTheLowBitsOfDin : Obligations.AccPushAppendsTheLowBitsOfDin := by
  refine ⟨fun cmd hrow => decode_accPush_iff.mpr ⟨hrow, rfl⟩, fun w s => ?_⟩
  obtain ⟨hsum, hpush⟩ | ⟨hsum, a, hpush, hn, hbits⟩ := accPush_cases s.acc s.din w.toNat
  · exact ⟨fun _ => exec_accPush_of_error hpush, fun hle => by omega⟩
  · refine ⟨fun hlt => by omega, fun _ => ⟨a.box, ?_, fun i hi => ?_⟩⟩
    · rw [exec_accPush_of_ok hpush, ← Accumulator.eq_mk_of_toNat hn]
      rfl
    · simpa [hi] using hbits i

/-- A popped value bit by bit (R111): the oldest w of the n bits, under copies of the oldest bit when the pop is signed. -/
theorem getLsbD_popped (sgn : Bool) (box : Word64) {w n i : Nat} (hw : w ≤ n) (hi : i < 64) :
    (extend64 sgn w (box >>> (n - w))).getLsbD i =
      if i < w then box.getLsbD (n - w + i) else (sgn && decide (0 < w) && box.getLsbD (n - 1)) := by
  rw [getLsbD_extend64 _ _ _ hi, BitVec.getLsbD_ushiftRight, BitVec.getLsbD_ushiftRight]
  rcases Nat.eq_zero_or_pos w with rfl | hpos
  · simp
  · rw [show n - w + (w - 1) = n - 1 by omega]

/-- Settles O24: `decode_accPop_iff` gives the words, and the two cases of `accPop_cases` the failure and the effect. -/
theorem accPopReturnsTheOldestBits : Obligations.AccPopReturnsTheOldestBits := by
  refine ⟨fun cmd hrow => decode_accPop_iff.mpr ⟨hrow, rfl, rfl⟩, fun w sgn s => ?_⟩
  obtain ⟨hfail, hpop⟩ | ⟨hw, hle, a, r, hpop, hn, hbits, rfl⟩ := accPop_cases s.acc w.toNat sgn
  · exact ⟨fun _ => exec_accPop_of_error hpop, fun hw hle => by omega⟩
  · refine ⟨fun hfail => by omega, fun _ _ => ⟨a.box, _, ?_, fun i _ => hbits i, fun i hi => getLsbD_popped sgn _ hle hi⟩⟩
    rw [exec_accPop_of_ok hpop, ← Accumulator.eq_mk_of_toNat hn]
    rfl

/-! ### The bits above the count -/

/-- A push keeps `box[63:n] = 0` (R115): a bit from n + w up is an old one from n up. -/
theorem accPush_box_lt {a a' : Accumulator} {v : Word64} {w : Nat} (hbox : a.box.toNat < 2 ^ a.n.toNat)
    (h : accPush a v w = .ok a') : a'.box.toNat < 2 ^ a'.n.toNat := by
  rw [lt_two_pow_iff_bits] at hbox ⊢
  obtain ⟨_, hpush⟩ | ⟨_, b, hpush, hn, hbits⟩ := accPush_cases a v w
  · cases hpush.symm.trans h
  · cases hpush.symm.trans h
    intro i hi
    rw [hbits, if_neg (by omega), hbox _ (by omega), Bool.and_false]

/-- A pop leaves `box[63:n] = 0` (R115), for it masks the box to the bits left. -/
theorem accPop_box_lt {a a' : Accumulator} {w : Nat} {sgn : Bool} {r : Word64} (h : accPop a w sgn = .ok (a', r)) :
    a'.box.toNat < 2 ^ a'.n.toNat := by
  rw [lt_two_pow_iff_bits]
  obtain ⟨_, hpop⟩ | ⟨_, _, b, _, hpop, hn, hbits, _⟩ := accPop_cases a w sgn
  · cases hpop.symm.trans h
  · cases hpop.symm.trans h
    intro i hi
    simp [hbits, show ¬ i < a.n.toNat - w by omega]

/-- Settles O25, by `accPush_box_lt` and `accPop_box_lt`. -/
theorem primitivesKeepTheBitsAboveTheCountZero : Obligations.PrimitivesKeepTheBitsAboveTheCountZero :=
  ⟨fun _ _ _ _ => accPush_box_lt, fun _ _ _ _ _ _ => accPop_box_lt, fun _ => ⟨_, rfl, rfl, rfl⟩, rfl, rfl⟩

/-! ### Push, then pop -/

@[simp] theorem Accumulator.empty_box : Accumulator.empty.box = 0 := rfl

/-- What is pushed onto a cleared accumulator pops as the extension of its low bits, and leaves the accumulator clear. -/
theorem accPush_empty_accPop (v : Word64) {w : Nat} (hw : w ≤ 64) (sgn : Bool) :
    ∃ a, accPush Accumulator.empty v w = .ok a ∧ accPop a w sgn = .ok (Accumulator.empty, extend64 sgn w v) := by
  have hempty : Accumulator.empty.n.toNat = 0 := rfl
  obtain ⟨_, _⟩ | ⟨_, a, hpush, hna, hbits⟩ := accPush_cases Accumulator.empty v w
  · omega
  obtain ⟨_, _⟩ | ⟨_, _, a', r, hpop, hna', hbits', hr⟩ := accPop_cases a w sgn
  · omega
  have ha' : a' = Accumulator.empty := by
    refine Accumulator.ext_bits (by omega) fun i _ => ?_
    simp [hbits', show a.n.toNat - w = 0 by omega]
  have hvalue : r = extend64 sgn w v := by
    rw [hr, show a.n.toNat - w = 0 by omega]
    exact extend64_congr fun i hi => by simp [hbits, hi]
  exact ⟨a, hpush, by rw [hpop, ha', hvalue]⟩

/-- `sext_64` (R14) is the library's sign extension of the value's low bits. -/
theorem sext64_eq_signExtend {w : Nat} (hw : 1 ≤ w) (v : Word64) : sext64 w v = (v.setWidth w).signExtend 64 := by
  apply BitVec.eq_of_getLsbD_eq
  intro i hi
  rw [getLsbD_sext64 w v hi, BitVec.getLsbD_signExtend, BitVec.msb_eq_getLsbD_last]
  by_cases h : i < w
  · simp [h, hi]
  · simp [h, hi, show w ≠ 0 by omega, show 0 < w by omega]

/-- A sign-extended value is the w-bit two's-complement value congruent to the one it was taken from (R120). -/
theorem toInt_sext64 {w : Nat} (hw : 1 ≤ w) (hw64 : w ≤ 64) (v : Word64) : (sext64 w v).toInt = Int.bmod v.toInt (2 ^ w) := by
  rw [sext64_eq_signExtend hw, BitVec.toInt_signExtend_of_le hw64, BitVec.toInt_setWidth, BitVec.toInt_eq_toNat_bmod,
    Int.bmod_bmod_of_dvd (Nat.pow_dvd_pow 2 hw64)]

/-- A value of the w-bit two's-complement range survives sign extension (R117). -/
theorem sext64_ofInt {w : Nat} (hw : 1 ≤ w) (hw64 : w ≤ 64) {x : Int} (hlo : -(2 : Int) ^ (w - 1) ≤ x) (hhi : x < (2 : Int) ^ (w - 1)) :
    (sext64 w (BitVec.ofInt 64 x)).toInt = x := by
  rw [toInt_sext64 hw hw64, BitVec.toInt_ofInt, Int.bmod_bmod_of_dvd (Nat.pow_dvd_pow 2 hw64), ← BitVec.toInt_ofInt]
  exact BitVec.toInt_ofInt_eq_self hw hlo hhi

theorem accPush_mask (a : Accumulator) (v : Word64) (w : Nat) : accPush a (v &&& mask w) w = accPush a v w := by
  simp only [accPush, BitVec.and_assoc, BitVec.and_self]

/-- Settles O31, by `accPush_mask` and the value that `accPush_empty_accPop` gives. -/
theorem outOfRangeValuesAreTruncatedModuloTheWidth : Obligations.OutOfRangeValuesAreTruncatedModuloTheWidth := by
  refine ⟨fun a v w => (accPush_mask a v w).symm, fun v w hw hw64 => ?_⟩
  obtain ⟨a, hpush, hpop⟩ := accPush_empty_accPop v hw64 true
  exact ⟨a, _, hpush, hpop, toInt_sext64 hw hw64 v⟩

/-- A transaction of a command that its word spells is the command's meaning, on the presented operand (R80, R89). -/
theorem issueInstr_eq {i : Instr} {din : Word64} {s t : State} (hd : decode (encode i) = .ok i)
    (h : exec i { s with din := din } = .next t) : issueInstr i din s = t :=
  issue_eq ((runWord_ok hd _).trans h)

theorem decode_encode_accPush (w : BitVec 7) : decode (encode (.accPush w)) = .ok (.accPush w) :=
  decode_accPush_iff.mpr (by revert w; decide)

theorem decode_encode_accPop (w : BitVec 7) (sgn : Bool) : decode (encode (.accPop w sgn)) = .ok (.accPop w sgn) :=
  decode_accPop_iff.mpr (by revert w sgn; decide)

/-- Settles O28: the two commands are the push and the pop of `accPush_empty_accPop`, and `sext64_ofInt` gives the value. -/
theorem signedValuesRoundTripAtEveryWidth : Obligations.SignedValuesRoundTripAtEveryWidth := by
  intro s w x d hclear hw hw64 hlo hhi s1 s2
  obtain ⟨a, hpush, hpop⟩ := accPush_empty_accPop (BitVec.ofInt 64 x) hw64 true
  rw [← hclear] at hpush
  have hs1 : s1 = _ := issueInstr_eq (decode_encode_accPush w) (exec_accPush_of_ok hpush)
  have hs1acc : s1.acc = a := by rw [hs1]; rfl
  rw [← hs1acc] at hpop
  have hs2 : s2 = _ := issueInstr_eq (decode_encode_accPop w true) (exec_accPop_of_ok hpop)
  have hdout : s2.dout = sext64 w.toNat (BitVec.ofInt 64 x) := by rw [hs2]; rfl
  have hvalue : s2.dout.toInt = x := by rw [hdout, sext64_ofInt hw hw64 hlo (by omega)]
  refine ⟨by rw [hs2]; rfl, ?_, hvalue⟩
  rw [← hvalue, BitVec.ofInt_toInt]

/-! ### Byte order -/

/-- An unsigned pop's value is a slice of the box. -/
theorem extend64_false_ushiftRight (w p : Nat) (v : Word64) : extend64 false w (v >>> p) = (v.extractLsb' p w).setWidth 64 := by
  apply BitVec.eq_of_getLsbD_eq
  intro i hi
  simp [extend64, hi]

/-- Popping the k bytes an accumulator holds returns them from the top down and clears it (R118). -/
theorem popSeq_bytes : ∀ (k : Nat) (a : Accumulator), a.n.toNat = 8 * k → k ≤ 8 → a.box.toNat < 2 ^ a.n.toNat →
    popSeq (List.replicate k 8) a =
      .ok (Accumulator.empty, (List.range k).map fun j => (a.box.extractLsb' (8 * (k - 1 - j)) 8).setWidth 64)
  | 0, a, hn, _, hbox => by
    have ha : a = Accumulator.empty := by
      refine Accumulator.ext_bits hn fun i _ => ?_
      simp [(lt_two_pow_iff_bits _ _).mp hbox i (by omega)]
    rw [ha]
    rfl
  | k + 1, a, hn, hk, _ => by
    obtain ⟨_, _⟩ | ⟨_, _, a', r, hpop, hn', hbits, hr⟩ := accPop_cases a 8 false
    · omega
    have hrest := popSeq_bytes k a' (by omega) (by omega) (accPop_box_lt hpop)
    have hbyte : ∀ j < k, a'.box.extractLsb' (8 * (k - 1 - j)) 8 = a.box.extractLsb' (8 * (k - (j + 1))) 8 := by
      intro j hj
      apply BitVec.eq_of_getLsbD_eq
      intro i hi
      rw [BitVec.getLsbD_extractLsb', BitVec.getLsbD_extractLsb', hbits, show k - 1 - j = k - (j + 1) by omega]
      simp [show 8 * (k - (j + 1)) + i < a.n.toNat - 8 by omega]
    rw [extend64_false_ushiftRight, show a.n.toNat - 8 = 8 * k by omega] at hr
    simp only [List.replicate_succ, popSeq, hpop, except_ok_bind, hrest, hr, List.range_succ_eq_map, List.map_cons, List.map_map]
    refine congrArg (fun vs => Except.ok (Accumulator.empty, _ :: vs)) (List.map_congr_left fun j hj => ?_)
    exact congrArg (BitVec.setWidth 64) (hbyte j (List.mem_range.mp hj))

/-- A push of w bits onto m bits is the concatenation of bit vectors (R110). -/
theorem accPush_append {m w : Nat} (x : BitVec m) (y : BitVec w) (h : m + w ≤ 64) :
    accPush ⟨x.setWidth 64, BitVec.ofNat 7 m⟩ (y.setWidth 64) w = .ok ⟨(x ++ y).setWidth 64, BitVec.ofNat 7 (m + w)⟩ := by
  have hm : (BitVec.ofNat 7 m).toNat = m := by rw [BitVec.toNat_ofNat]; omega
  have hmw : (BitVec.ofNat 7 (m + w)).toNat = m + w := by rw [BitVec.toNat_ofNat]; omega
  obtain ⟨hsum, _⟩ | ⟨_, a, hpush, hn, hbits⟩ := accPush_cases ⟨x.setWidth 64, BitVec.ofNat 7 m⟩ (y.setWidth 64) w
  · exact absurd hsum (by rw [hm]; omega)
  rw [hpush, Accumulator.ext_bits (a := a) (b := ⟨(x ++ y).setWidth 64, BitVec.ofNat 7 (m + w)⟩) (by rw [hn, hm, hmw]) fun i hi => ?_]
  rw [hbits, BitVec.getLsbD_setWidth, BitVec.getLsbD_setWidth, BitVec.getLsbD_setWidth, BitVec.getLsbD_append]
  simp [hi, show i - w < 64 by omega]

/-- The first push onto a cleared accumulator gives the pushed bits alone. -/
theorem accPush_empty {w : Nat} (y : BitVec w) (h : w ≤ 64) :
    accPush Accumulator.empty (y.setWidth 64) w = .ok ⟨y.setWidth 64, BitVec.ofNat 7 w⟩ := by
  have hempty : Accumulator.empty = ⟨(0#0).setWidth 64, BitVec.ofNat 7 0⟩ := rfl
  rw [hempty, accPush_append 0#0 y (by omega), BitVec.zero_width_append, BitVec.setWidth_cast, Nat.zero_add]

/-- Settles O29: the pops are `popSeq_bytes` at eight bytes, the pushes eight concatenations by `accPush_append`. -/
theorem bytePopsAndPushesAreBigEndian : Obligations.BytePopsAndPushesAreBigEndian := by
  constructor
  · intro box
    refine (popSeq_bytes 8 ⟨box, 64⟩ rfl (by decide) box.isLt).trans ?_
    refine congrArg (fun vs => Except.ok (Accumulator.empty, vs)) (List.map_congr_left fun j _ => ?_)
    rw [show 8 * (8 - 1 - j) = 56 - 8 * j by omega]
  · intro b0 b1 b2 b3 b4 b5 b6 b7
    change pushSeq _ Accumulator.empty = _
    simp (disch := decide) only [List.map_cons, List.map_nil, pushSeq, accPush_empty, accPush_append, except_ok_bind]
    rw [BitVec.setWidth_eq]
    rfl

end Sys2Proof.Machine
end

section
/-! Construction (R143, R144): the check's two failures in their order, and what it accepts. -/

namespace Sys2Proof.Machine

/-! ### The check of a layout -/

theorem layoutFailure_eq_invalidWidth {l : Layout} (h : ∃ f ∈ l, f.width < 1 ∨ 64 < f.width) :
    layoutFailure l = some .invalidWidth := by
  obtain ⟨f, hf, hw⟩ := h
  exact if_pos (List.any_eq_true.mpr ⟨f, hf, by simpa using hw⟩)

/-- With valid widths the check is that of the sum alone (R143). -/
theorem layoutFailure_eq_fieldOverflow {l : Layout} (hw : ∀ f ∈ l, 1 ≤ f.width ∧ f.width ≤ 64) (hsum : 64 < layoutSum l) :
    layoutFailure l = some .fieldOverflow := by
  have hany : ¬ l.any (fun f => f.width < 1 || 64 < f.width) = true := by
    simpa [Nat.one_le_iff_ne_zero] using hw
  exact (if_neg hany).trans (if_pos hsum)

/-! ### Construction -/

theorem construct_of_some {l : Layout} {e : ConstructionFailure} (h : layoutFailure l = some e) : construct l = .error e := by
  unfold construct
  split
  next e' he =>
    cases he.symm.trans h
    rfl
  next hnone => cases hnone.symm.trans h

theorem construct_of_none {l : Layout} (h : layoutFailure l = none) : construct l = .ok (State.resetOf ⟨l, h⟩) := by
  unfold construct
  split
  next e he => cases he.symm.trans h
  next => rfl

/-- Settles O15: each way the check ends decides what `construct` answers, and the layouts of a state have passed it. -/
theorem constructionAcceptsExactlyTheValidLayouts : Obligations.ConstructionAcceptsExactlyTheValidLayouts := by
  refine ⟨fun l hbad => ?width, fun l hw hsum => ?overflow, fun l hw hsum => ?accepted, fun s k => ?built⟩
  case width => exact construct_of_some (layoutFailure_eq_invalidWidth hbad)
  case overflow => exact construct_of_some (layoutFailure_eq_fieldOverflow hw hsum)
  case accepted =>
    have hvalid : layoutFailure l = none := (layoutFailure_eq_none_iff l).mpr ⟨hw, hsum⟩
    exact ⟨_, construct_of_none hvalid, rfl, State.resetOf_atReset _⟩
  case built => exact ⟨fun _ => State.layout_width, s.layout_sum_le k, s.layout_length_le k⟩

/-- Settles O16: the reference widths are each valid and sum to 75. -/
theorem referenceWordTwoLayoutIsRefused : Obligations.ReferenceWordTwoLayoutIsRefused := by
  intro l hl
  have hwidths : ∀ w ∈ ([12, 9, 9, 9, 12, 8, 8, 8] : List Nat), 1 ≤ w ∧ w ≤ 64 := by decide
  have hw : ∀ f ∈ l, 1 ≤ f.width ∧ f.width ≤ 64 := fun f hf => hwidths f.width (hl ▸ List.mem_map_of_mem hf)
  have hsum : layoutSum l = 75 := congrArg List.sum hl
  exact construct_of_some (layoutFailure_eq_fieldOverflow hw (by omega))

end Sys2Proof.Machine
end

section
/-! PACK_WORD and UNPACK_WORD (41_packer.md, 42_unpacker.md): where a field's bits stand in its word. -/

namespace Sys2Proof.Machine

/-! ### PACK_WORD -/

theorem decode_packWord {cmd : CmdWord} (h : cmd &&& 0xFFFFEFFF = 0x4) : decode cmd = .ok (.packWord (fieldK cmd)) :=
  (decode_eq_ok_iff_selects (r := ⟨.packWord, 0x4, 0xFFFFEFFF⟩) (by decide) rfl rfl).mpr h

/-- A valid layout packs without failure: field j's bits from `fieldPos l j` up, and a pad of 0 (R145, R146). -/
theorem packedWord_ok {l : Layout} (b : Bank) (hsum : layoutSum l ≤ 64) :
    ∃ v, packedWord l b = .ok v ∧
      (∀ j f, l[j]? = some f → ∀ t, t < f.width → v.getLsbD (fieldPos l j + t) = (slot b j).getLsbD t) ∧
      (∀ t, layoutSum l ≤ t → v.getLsbD t = false) := by
  obtain ⟨a, hpad, hn, hzero⟩ := pushPad_ok l hsum
  obtain ⟨a', hpush, _, hfields, hrest⟩ := pushFields_ok b l 0 a (by omega)
  refine ⟨a'.box, by simp [packedWord, hpad, hpush, pure, Except.pure], ?_, ?_⟩
  · simpa using hfields
  · intro t ht
    rw [hrest t ht, hzero, Bool.and_false]

theorem exec_packWord_of_ok {k : Fin 2} {s : State} {v : Word64} (h : packedWord (s.layout k) (s.bank k) = .ok v) :
    exec (.packWord k) s = .next ((s.setWord k v).setResp respOk) := by
  simp [exec, execPackWord, h]

@[simp] theorem slot_bank (s : State) (k : Fin 2) (i : Fin 64) : slot (s.bank k) i.val = s.fieldReg k i := by
  simp [slot, State.fieldReg]

/-- Settles O32: `decode_packWord` gives the words, and `packedWord_ok` the word that PACK_WORD commits. -/
theorem packWordPlacesEveryFieldAtItsPosition : Obligations.PackWordPlacesEveryFieldAtItsPosition := by
  refine ⟨fun _ => decode_packWord, fun k s => ?_⟩
  obtain ⟨v, hv, hfields, hpad⟩ := packedWord_ok (s.bank k) (s.layout_sum_le k)
  refine ⟨v, exec_packWord_of_ok hv, fun i f hf j hj => ?_, hpad⟩
  rw [← slot_bank]
  exact hfields i.val f hf j hj

/-! ### UNPACK_WORD -/

/-- Eight bytes unpack under a valid layout without failure: the word is the bytes, most significant first; slot j gets the field at
`fieldPos l j`, whatever the pad, and the slots past the layout keep their values (R160, R162). -/
theorem unpackedWord_ok {l : Layout} (hsum : layoutSum l ≤ 64) {bytes : List Byte} (hlen : bytes.length = 8) (b : Bank) :
    ∃ v b', unpackedWord l bytes b = .ok (v, b') ∧
      (∀ j x, bytes[j]? = some x → v.extractLsb' (56 - 8 * j) 8 = x) ∧
      (∀ j f, l[j]? = some f → j < 64 → b'[j]? = some (extend64 f.signed f.width (v >>> fieldPos l j))) ∧
      (∀ j, l.length ≤ j → b'[j]? = b[j]?) := by
  have hempty : Accumulator.empty.n.toNat = 0 := rfl
  obtain ⟨a, hpush, hn, hbytes, _⟩ := pushBytes_ok bytes Accumulator.empty (by omega)
  obtain ⟨a', hpad, hn', hbits⟩ := popPad_ok l a (by omega) hsum
  obtain ⟨b', hpop, hused, hunused⟩ := popFields_ok l 0 a' b hn' (by omega)
  refine ⟨a.box, b', by simp [unpackedWord, hpush, hpad, hpop, pure, Except.pure], fun j x hx => ?bytes, fun j f hf hj => ?used,
    fun j hj => hunused j (by omega)⟩
  case bytes =>
    apply BitVec.eq_of_getLsbD_eq
    intro i hi
    rw [BitVec.getLsbD_extractLsb', ← hbytes j x hx i hi, hlen, show 8 * (8 - 1 - j) = 56 - 8 * j by omega]
    simp [hi]
  case used =>
    have hread : extend64 f.signed f.width (a'.box >>> fieldPos l j) = extend64 f.signed f.width (a.box >>> fieldPos l j) := by
      refine extend64_congr fun t ht => ?_
      have := fieldPos_add_width_le l j f hf
      rw [BitVec.getLsbD_ushiftRight, BitVec.getLsbD_ushiftRight, hbits _ (by omega)]
    simpa [hread] using hused j f hf (by omega)

theorem exec_unpackWord_of_ok {k : Fin 2} {s : State} {v : Word64} {b : Bank}
    (h : unpackedWord (s.layout k) (s.payload k) (s.bank k) = .ok (v, b)) :
    exec (.unpackWord k) s = .next (((s.setWord k v).setBank k b).setResp respOk) := by
  simp [exec, execUnpackWord, h]

@[simp] theorem State.payload_length (s : State) (k : Fin 2) : (s.payload k).length = 8 := rfl

/-- After UNPACK_WORD each field register of the layout is its bits of the word register, extended (R160). -/
theorem exec_unpackWord_fieldReg (k : Fin 2) (s : State) :
    ∃ t, exec (.unpackWord k) s = .next t ∧ ∀ (i : Fin 64) (f : FieldSpec), (s.layout k)[i.val]? = some f →
      t.fieldReg k i = extend64 f.signed f.width (t.wordReg k >>> fieldPos (s.layout k) i.val) := by
  obtain ⟨v, b, hv, _, hused, _⟩ := unpackedWord_ok (s.layout_sum_le k) (s.payload_length k) (s.bank k)
  refine ⟨_, exec_unpackWord_of_ok hv, fun i f hf => ?_⟩
  have hword : (((s.setWord k v).setBank k b).setResp respOk).wordReg k = v :=
    (s.setWord_wordReg k k v).trans (if_pos rfl)
  have hfield : (((s.setWord k v).setBank k b).setResp respOk).fieldReg k i = b[i] :=
    ((s.setWord k v).setBank_fieldReg k k b i).trans (if_pos rfl)
  rw [hword, hfield]
  simpa using hused i.val f hf i.isLt

/-- Sign extension of a slice (R10) reads the shifted word: the slice's mask keeps the bits that are read. -/
theorem sext64_slice (v : Word64) (hi lo : Nat) : sext64 (hi + 1 - lo) (slice v hi lo) = sext64 (hi + 1 - lo) (v >>> lo) :=
  extend64_congr (sgn := true) fun i hw => by
    by_cases h : i < 64
    · simp [slice, hw, h]
    · simp [BitVec.getLsbD_of_ge _ i (Nat.not_lt.mp h)]

/-- Settles O41: each field of `layoutW1` is a case of `exec_unpackWord_fieldReg`; a zero-extended one is its slice by definition. -/
theorem wordOneFieldsAreTheirBitFields : Obligations.WordOneFieldsAreTheirBitFields := by
  intro s
  obtain ⟨t, ht, hfield⟩ := exec_unpackWord_fieldReg 0 s
  have hsigned : ∀ (i : Fin 64) (hi lo : Nat), layoutW1[i.val]? = some ⟨hi + 1 - lo, true⟩ → fieldPos layoutW1 i.val = lo →
      t.fieldReg 0 i = sext64 (hi + 1 - lo) (slice (t.wordReg 0) hi lo) := by
    rintro i hi _ hf rfl
    exact (hfield i _ hf).trans (sext64_slice _ _ _).symm
  exact ⟨t, ht, hfield 0 ⟨6, false⟩ rfl, hfield 1 ⟨6, false⟩ rfl, hsigned 2 51 46 rfl rfl, hsigned 3 45 40 rfl rfl,
    hsigned 4 39 31 rfl rfl, hsigned 5 30 21 rfl rfl, hsigned 6 20 11 rfl rfl, hsigned 7 10 0 rfl rfl⟩

end Sys2Proof.Machine
end

section
/-! UNPACK_WORD (42_unpacker.md): its words, its whole effect, and what it reads back from a wrapped frame (R160 to R162). -/

namespace Sys2Proof.Machine

/-! ### The command UNPACK_WORD -/

theorem decode_unpackWord {cmd : CmdWord} (h : cmd &&& 0xFFFFEFFF = 0x5) : decode cmd = .ok (.unpackWord (fieldK cmd)) :=
  (decode_eq_ok_iff_selects (r := ⟨.unpackWord, 0x5, 0xFFFFEFFF⟩) (by decide) rfl rfl).mpr h

theorem octets_getElem? (m : Fin 8) : octets[m.val]? = some m := by
  revert m
  decide

theorem State.payload_getElem? (s : State) (k : Fin 2) (m : Fin 8) : (s.payload k)[m.val]? = some (s.frameByte (payloadIndex k m)) := by
  simp [State.payload, octets_getElem?]

/-- Settles O34: `decode_unpackWord` gives the words, and `unpackedWord_ok` at the payload the word and the bank that are committed. -/
theorem unpackWordRecoversWordAndFields : Obligations.UnpackWordRecoversWordAndFields := by
  refine ⟨fun _ => decode_unpackWord, fun k s => ?_⟩
  obtain ⟨v, b, hv, hbytes, hused, hunused⟩ := unpackedWord_ok (s.layout_sum_le k) (s.payload_length k) (s.bank k)
  refine ⟨v, b, exec_unpackWord_of_ok hv, fun j m hm hj => ?bytes, fun i f hf => ?used, fun i hi => ?unused⟩
  case bytes =>
    obtain rfl : j = payloadIndex k ⟨m, hm⟩ := Fin.ext hj
    exact hbytes m _ (s.payload_getElem? k ⟨m, hm⟩)
  case used => simpa [fieldPos, layoutSum] using hused i.val f hf i.isLt
  case unused => simpa [State.fieldReg] using hunused i.val (List.getElem?_eq_none_iff.mp hi)

/-! ### A word through the frame -/

/-- The payload bytes of the two words share no place in the frame (R63). -/
theorem payloadIndex_ne {k k' : Fin 2} (h : k ≠ k') (i j : Fin 8) : payloadIndex k i ≠ payloadIndex k' j := by
  simp only [payloadIndex, ne_eq, Fin.mk.injEq]
  omega

/-- The framer writes a word's eight bytes, most significant first, and no other place of the frame (R63, R181). -/
theorem serializeWord_ok (k : Fin 2) (w : Word64) (f : Frame) :
    ∃ f', serializeWord k w f = .ok f' ∧ (∀ m : Fin 8, f'[payloadIndex k m] = w.extractLsb' (56 - 8 * m.val) 8) ∧
      ∀ j : Fin 18, (∀ m, payloadIndex k m ≠ j) → f'[j] = f[j] := by
  have hpush : accPush Accumulator.empty w 64 = .ok ⟨w, 64⟩ := by
    simpa using accPush_empty w (Nat.le_refl 64)
  obtain ⟨f', hpop, hbytes, hrest⟩ := popBytes_ok k octets ⟨w, 64⟩ f rfl (by decide) (by decide)
  refine ⟨f', by rw [serializeWord, hpush, except_ok_bind, hpop], fun m => ?_, fun j hj => hrest j fun m _ => hj m⟩
  rw [hbytes m.val m (octets_getElem? m), show octets.length = 8 from rfl, show 8 * (8 - 1 - m.val) = 56 - 8 * m.val by omega]

/-- FRAME_WRAP completes with the markers at the frame's ends and the bytes of both words between them (R181). -/
theorem exec_frameWrap_ok (s : State) :
    ∃ f : Frame, exec .frameWrap s = .next (((s.setFrame f).setFrameLen frameBytes).setResp respOk) ∧
      f[(0 : Fin 18)] = syncStart ∧ f[(17 : Fin 18)] = syncEnd ∧
      ∀ (k : Fin 2) (m : Fin 8), f[payloadIndex k m] = (s.wordReg k).extractLsb' (56 - 8 * m.val) 8 := by
  obtain ⟨f0, h0, hbytes0, hrest0⟩ := serializeWord_ok 0 (s.wordReg 0) (s.frame.set 0 syncStart)
  obtain ⟨f1, h1, hbytes1, hrest1⟩ := serializeWord_ok 1 (s.wordReg 1) f0
  have hne0 : ∀ (k : Fin 2) (m : Fin 8), payloadIndex k m ≠ 0 := by decide
  have hne17 : ∀ j : Fin 18, j ≠ 17 → (f1.set 17 syncEnd)[j] = f1[j] := fun j hj =>
    Vector.getElem_set_ne _ _ fun h => hj (Fin.ext h.symm)
  refine ⟨f1.set 17 syncEnd, by simp [exec, execFrameWrap, h0, h1], ?start, by simp, fun k m => ?bytes⟩
  case start =>
    rw [hne17 0 (by decide), hrest1 0 (hne0 1), hrest0 0 (hne0 0)]
    simp
  case bytes =>
    rw [hne17 _ (by revert k m; decide)]
    fin_cases k
    · exact (hrest1 _ fun m' => payloadIndex_ne (by decide) m' m).trans (hbytes0 m)
    · exact hbytes1 m

/-- A 64-bit word is determined by its bytes (R10, R63). -/
theorem eq_of_extractLsb'_bytes {v w : Word64} (h : ∀ m : Fin 8, v.extractLsb' (56 - 8 * m.val) 8 = w.extractLsb' (56 - 8 * m.val) 8) :
    v = w := by
  apply BitVec.eq_of_getLsbD_eq
  intro i hi
  have hbit := congrArg (fun b => b.getLsbD (i % 8)) (h ⟨7 - i / 8, by omega⟩)
  simpa [BitVec.getLsbD_extractLsb', show i % 8 < 8 by omega, show 56 - 8 * (7 - i / 8) + i % 8 = i by omega] using hbit

theorem decode_encode_packWord (k : Fin 2) : decode (encode (.packWord k)) = .ok (.packWord k) := by
  revert k
  decide

theorem decode_encode_unpackWord (k : Fin 2) : decode (encode (.unpackWord k)) = .ok (.unpackWord k) := by
  revert k
  decide

/-- Wrapping a frame and unpacking a word from it reads the word register back into the word and its field registers (R183, R160). -/
theorem issueInstr_frameWrap_unpackWord (s : State) (k : Fin 2) (d : Word64) :
    let t := issueInstr (.unpackWord k) d (issueInstr .frameWrap d s)
    t.resp = respOk ∧ t.wordReg k = s.wordReg k ∧
    (∀ (i : Fin 64) (f : FieldSpec), (s.layout k)[i.val]? = some f →
      t.fieldReg k i = extend64 f.signed f.width (s.wordReg k >>> fieldPos (s.layout k) i.val)) ∧
    ∀ i : Fin 64, (s.layout k)[i.val]? = none → t.fieldReg k i = s.fieldReg k i := by
  intro t
  obtain ⟨fr, hwrap, _, _, hframe⟩ := exec_frameWrap_ok { s with din := d }
  obtain ⟨v, b, hunpack, hbytes, hused, hunused⟩ := unpackWordRecoversWordAndFields.2 k
    { s with din := d, frame := fr, frameLen := frameBytes, resp := respOk }
  have ht : t = _ := (congrArg _ (issueInstr_eq (by decide) hwrap)).trans (issueInstr_eq (decode_encode_unpackWord k) hunpack)
  have hv : v = s.wordReg k := eq_of_extractLsb'_bytes fun m => (hbytes (payloadIndex k m) m.val m.isLt rfl).trans (hframe k m)
  have hword : t.wordReg k = v := by rw [ht]; exact (s.setWord_wordReg k k v).trans (if_pos rfl)
  have hfield : ∀ i, t.fieldReg k i = b[i] := fun i => by rw [ht]; exact (s.setBank_fieldReg k k b i).trans (if_pos rfl)
  refine ⟨by rw [ht]; rfl, hword.trans hv, fun i f hf => ?_, fun i hi => (hfield i).trans (hunused i hi)⟩
  rw [hfield, ← hv]
  exact hused i f hf

/-! ### Pack, wrap, unpack -/

/-- A value in its field's range is its own extension (R13, R161). -/
theorem FieldSpec.extend64_of_inRange {f : FieldSpec} (hw : 1 ≤ f.width ∧ f.width ≤ 64) {v : Word64} (h : f.inRange v) :
    extend64 f.signed f.width v = v := by
  obtain ⟨hw1, hw64⟩ := hw
  unfold FieldSpec.inRange at h
  unfold extend64
  split at h
  next hsigned =>
    rw [if_pos hsigned]
    obtain ⟨hlo, hhi⟩ := h
    apply BitVec.eq_of_toInt_eq
    simpa using sext64_ofInt hw1 hw64 hlo (by omega)
  next hunsigned =>
    rw [if_neg hunsigned]
    apply BitVec.eq_of_toNat_eq
    rw [zext64, toNat_and_mask v hw64, Nat.mod_eq_of_lt h]

/-- Settles O39: what `issueInstr_frameWrap_unpackWord` reads back are the bits where `packWordPlacesEveryFieldAtItsPosition` put them. -/
theorem packWrapUnpackRestoresTheFields : Obligations.PackWrapUnpackRestoresTheFields := by
  intro s k d t
  obtain ⟨v, hpack, hbits, _⟩ := packWordPlacesEveryFieldAtItsPosition.2 k { s with din := d }
  have hpacked := issueInstr_eq (decode_encode_packWord k) hpack
  have hlayout : (issueInstr (.packWord k) d s).layout k = s.layout k := by rw [hpacked]; rfl
  have hword : (issueInstr (.packWord k) d s).wordReg k = v := by rw [hpacked]; exact (s.setWord_wordReg k k v).trans (if_pos rfl)
  have hfield : ∀ i, (issueInstr (.packWord k) d s).fieldReg k i = s.fieldReg k i := fun i => by rw [hpacked]; rfl
  obtain ⟨hresp, _, hused, hunused⟩ := issueInstr_frameWrap_unpackWord (issueInstr (.packWord k) d s) k d
  simp only [hlayout, hword, hfield] at hused hunused
  have hextended : ∀ (i : Fin 64) (f : FieldSpec), (s.layout k)[i.val]? = some f →
      t.fieldReg k i = extend64 f.signed f.width (s.fieldReg k i) := fun i f hf =>
    (hused i f hf).trans (extend64_congr fun j hj => (BitVec.getLsbD_ushiftRight ..).trans (hbits i f hf j hj))
  refine ⟨hresp, fun hrange i => ?_, hextended⟩
  cases hf : (s.layout k)[i.val]? with
  | none => exact hunused i hf
  | some f =>
    rw [hextended i f hf]
    exact FieldSpec.extend64_of_inRange (State.layout_width (List.mem_of_getElem? hf)) (hrange i f hf)

end Sys2Proof.Machine
end

section
/-! The sync_framer commands FRAME_WRAP and FRAME_CHECK (43_sync_framer.md): their words, their whole effects, and what follows a failed
and a passed check (R180 to R184). -/

namespace Sys2Proof.Machine

/-! ### Their words -/

/-- A row that fixes every bit gives its command to its pattern alone (R84). -/
theorem decode_eq_ok_iff_eq_pattern {r : OpRow} (hr : r ∈ opcodeMap) (hmask : r.mask = BitVec.allOnes 32) {cmd : CmdWord} {i : Instr}
    (hop : Laws.RowMatch.opOf i = r.op) (hi : operandsOf r.op cmd = .ok i) : decode cmd = .ok i ↔ cmd = r.pattern := by
  rw [decode_eq_ok_iff_selects hr hop hi, hmask, BitVec.and_allOnes]

theorem decode_frameWrap_iff (cmd : CmdWord) : decode cmd = .ok .frameWrap ↔ cmd = 0x6 :=
  decode_eq_ok_iff_eq_pattern (r := ⟨.frameWrap, 0x6, 0xFFFFFFFF⟩) (by decide) rfl rfl rfl

theorem decode_frameCheck_iff (cmd : CmdWord) : decode cmd = .ok .frameCheck ↔ cmd = 0x7 :=
  decode_eq_ok_iff_eq_pattern (r := ⟨.frameCheck, 0x7, 0xFFFFFFFF⟩) (by decide) rfl rfl rfl

/-! ### FRAME_WRAP -/

/-- Settles O35: `exec_frameWrap_ok` is the effect, with byte m of word k at its payload index. -/
theorem frameWrapBuildsTheWireFrame : Obligations.FrameWrapBuildsTheWireFrame := by
  refine ⟨decode_frameWrap_iff, fun s => ?_⟩
  obtain ⟨f, hexec, hstart, hend, hbytes⟩ := exec_frameWrap_ok s
  refine ⟨f, hexec, hstart, hend, fun k j m hm hj => ?_⟩
  obtain rfl : j = payloadIndex k ⟨m, hm⟩ := Fin.ext hj
  exact hbytes k ⟨m, hm⟩

/-! ### FRAME_CHECK, by its three outcomes -/

theorem exec_frameCheck_of_badLength {s : State} (hlen : s.frameLen ≠ frameBytes) :
    exec .frameCheck s = .next (s.failed 4) := by
  simp [exec, execFrameCheck, hlen, State.raise_eq_failed, Err.code]

theorem exec_frameCheck_of_badSync {s : State} (hlen : s.frameLen = frameBytes)
    (hsync : s.frameByte 0 ≠ syncStart ∨ s.frameByte 17 ≠ syncEnd) : exec .frameCheck s = .next (s.failed 3) := by
  rw [exec, execFrameCheck, if_neg (not_not.mpr hlen), if_pos hsync, respond_error, State.raise_eq_failed]
  rfl

theorem exec_frameCheck_of_framed {s : State} (hlen : s.frameLen = frameBytes) (hstart : s.frameByte 0 = syncStart)
    (hend : s.frameByte 17 = syncEnd) : exec .frameCheck s = .next (s.setResp respOk) := by
  simp [exec, execFrameCheck, hlen, hstart, hend]

/-- Settles O36: each clause is one outcome of the check, the length before the markers. -/
theorem frameCheckTestsLengthThenMarkers : Obligations.FrameCheckTestsLengthThenMarkers :=
  ⟨decode_frameCheck_iff, fun _ => ⟨exec_frameCheck_of_badLength, exec_frameCheck_of_badSync, exec_frameCheck_of_framed⟩⟩

/-! ### After a failed check -/

theorem decode_encode_regRead {a : BitVec 9} (h : readableAddress a = true) : decode (encode (.regRead a)) = .ok (.regRead a) := by
  have hsel : encode (.regRead a) &&& 0xFFC01FFF = 0x8 := by revert a; decide
  have hfield : a = (encode (.regRead a)).extractLsb' 13 9 := by revert a; decide
  exact (decode_eq_ok_iff_row (r := ⟨.regRead, 0x8, 0xFFC01FFF⟩) (by decide) rfl operandsOf_regRead_iff).mpr
    ⟨hsel, hfield, (readableAddress_iff a).mp h⟩

theorem decode_encode_regWrite {a : BitVec 9} (h : writableAddress a = true) : decode (encode (.regWrite a)) = .ok (.regWrite a) := by
  have hsel : encode (.regWrite a) &&& 0xFFC01FFF = 0x9 := by revert a; decide
  have hfield : a = (encode (.regWrite a)).extractLsb' 13 9 := by revert a; decide
  exact (decode_eq_ok_iff_row (r := ⟨.regWrite, 0x9, 0xFFC01FFF⟩) (by decide) rfl operandsOf_regWrite_iff).mpr
    ⟨hsel, hfield, (writableAddress_iff a).mp h⟩

/-- The word of a well-formed command decodes to it (R88). -/
theorem decode_encode_of_wellFormed {i : Instr} (h : i.wellFormed = true) : decode (encode i) = .ok i := by
  cases i with
  | accPush w => exact decode_encode_accPush w
  | accPop w sgn => exact decode_encode_accPop w sgn
  | packWord k => exact decode_encode_packWord k
  | unpackWord k => exact decode_encode_unpackWord k
  | regRead a => exact decode_encode_regRead h
  | regWrite a => exact decode_encode_regWrite h
  | nop | accClear | frameWrap | frameCheck | errClear => rfl

/-- A well-formed command presented in any state is executed on its operand (R71, R89). -/
theorem step_present_encode {i : Instr} (h : i.wellFormed = true) (s : State) (d : Word64) :
    step (s.present ⟨encode i, d⟩) = exec i { s with din := d } :=
  (step_command rfl).trans (runWord_ok (decode_encode_of_wellFormed h) _)

/-- Settles O37: by `exec_cases` a check that responds an error only raised it, and `step_present_encode` holds in every state. -/
theorem malformedFramesAreRecoverable : Obligations.MalformedFramesAreRecoverable := by
  intro s t hexec hresp
  refine ⟨?_, fun i d hi => step_present_encode hi t d⟩
  obtain ⟨e, hraise⟩ | ⟨u, _, hcommit⟩ := exec_cases .frameCheck s
  · cases hraise.symm.trans hexec
    rfl
  · cases hcommit.symm.trans hexec
    exact absurd rfl hresp

/-! ### After FRAME_WRAP -/

/-- A wrapped frame passes the check (R183): the wrap set the length and both markers. -/
theorem issueInstr_frameWrap_frameCheck (s : State) (d : Word64) :
    (issueInstr .frameCheck d (issueInstr .frameWrap d s)).resp = respOk := by
  obtain ⟨f, hwrap, hstart, hend, _⟩ := exec_frameWrap_ok { s with din := d }
  have hcheck := exec_frameCheck_of_framed (s := { s with din := d, frame := f, frameLen := frameBytes, resp := respOk }) rfl hstart hend
  rw [issueInstr_eq (decode_encode_of_wellFormed rfl) hwrap, issueInstr_eq (decode_encode_of_wellFormed rfl) hcheck]
  rfl

/-- Settles O38, by `issueInstr_frameWrap_frameCheck` and `issueInstr_frameWrap_unpackWord`. -/
theorem wrappedFramesCheckAndUnpackToTheirWords : Obligations.WrappedFramesCheckAndUnpackToTheirWords := by
  intro s k d t
  obtain ⟨_, hword, _⟩ := issueInstr_frameWrap_unpackWord s k d
  exact ⟨issueInstr_frameWrap_frameCheck s d, hword⟩

end Sys2Proof.Machine
end

section
/-! Register access and control (44_register_access.md): NOP, ERR_CLEAR, and the register every address of R61 names to REG_READ and
REG_WRITE (R200 to R203). -/

namespace Sys2Proof.Machine

/-! ### NOP and ERR_CLEAR -/

/-- Settles O42: the row of NOP fixes every bit of the word, and its meaning commits the state as it is. -/
theorem nopOnlyRespondsOk : Obligations.NopOnlyRespondsOk :=
  ⟨fun _ => decode_eq_ok_iff_eq_pattern (r := ⟨.nop, 0x0, 0xFFFFFFFF⟩) (by decide) rfl rfl rfl, fun _ => rfl⟩

@[simp] theorem memWrite_errstat (s : State) (r : Reg) (v : Word64) : (memWrite s r v).errstat = s.errstat := by
  rw [memWrite_frame]

@[simp] theorem State.accept_errstat (s : State) (c : Command) (rest : List HostEvent) : (s.accept c rest).errstat = s.errstat := rfl

/-- No commit but that of ERR_CLEAR writes ERRSTAT (R38, R203). -/
theorem Commits.errstat_eq {s u : State} {i : Instr} (h : Commits s i u) (hi : i ≠ .errClear) : u.errstat = s.errstat := by
  cases h with
  | errClear => exact absurd rfl hi
  | _ => simp

/-- Settles O43: a failure only sets a bit of ERRSTAT, and of the commits only that of ERR_CLEAR writes it. -/
theorem errClearAloneClearsTheSummary : Obligations.ErrClearAloneClearsTheSummary := by
  refine ⟨fun _ => decode_eq_ok_iff_eq_pattern (r := ⟨.errClear, 0xA, 0xFFFFFFFF⟩) (by decide) rfl rfl rfl, fun _ => rfl,
    ?command, ?reset⟩
  case command =>
    intro s t c rest hp hc hstep b hb
    obtain ⟨hidle, _⟩ | ⟨_, hreset, _⟩ | ⟨_, _, e, _, rfl⟩ | ⟨c', _, i, u, hp', hd, hu, rfl⟩ := step_cases hstep
    · cases hp.symm.trans hidle
    · cases hp.symm.trans hreset
    · simp [getLsbD_logError, hb]
    · cases hp.symm.trans hp'
      have hi : i ≠ .errClear := fun h => hc (h ▸ hd)
      have herr : u.errstat = s.errstat := hu.errstat_eq hi
      rwa [State.setResp_errstat, herr]
  case reset =>
    intro s t rest hp hstep
    cases (step_reset hp).symm.trans hstep
    rfl

/-! ### The address map -/

theorem regAt_addr (r : Reg) : regAt r.addr = some r := by
  cases r with
  | field k i => revert k i; decide
  | word k => revert k; decide
  | frame j => revert j; decide
  | layout k i => revert k i; decide
  | frameLen | accBox | accCount | errstat | config => rfl

/-- An address given as a number names the register with that number in R61. -/
theorem regAt_of_toNat {a : BitVec 9} {n : Nat} (h : a.toNat = n) {r : Reg} (hr : r.addr = BitVec.ofNat 9 n) : regAt a = some r := by
  have ha : a = r.addr := by rw [hr, ← h, BitVec.ofNat_toNat, BitVec.setWidth_eq]
  rw [ha, regAt_addr]

theorem Reg.addr_field (k : Fin 2) (i : Fin 64) : (Reg.field k i).addr = BitVec.ofNat 9 (64 * k.val + i.val) := by
  rw [Reg.addr, Nat.zero_add]

/-! ### REG_READ -/

theorem decode_regRead_iff {cmd : CmdWord} {a : BitVec 9} :
    decode cmd = .ok (.regRead a) ↔ cmd &&& 0xFFC01FFF = 0x8 ∧ a = cmd.extractLsb' 13 9 ∧ ¬ reservedAddress a :=
  decode_eq_ok_iff_row (r := ⟨.regRead, 0x8, 0xFFC01FFF⟩) (by decide) rfl operandsOf_regRead_iff

theorem regAt_of_reservedAddress {a : BitVec 9} (h : reservedAddress a) : regAt a = none :=
  Option.not_isSome_iff_eq_none.mp fun hread => (readableAddress_iff a).mp hread h

theorem regAt_of_not_reservedAddress {a : BitVec 9} (h : ¬ reservedAddress a) : ∃ r, regAt a = some r :=
  Option.isSome_iff_exists.mp ((readableAddress_iff a).mpr h)

theorem exec_regRead_of_reservedAddress {a : BitVec 9} (h : reservedAddress a) (s : State) :
    exec (.regRead a) s = .next (s.failed 5) := by
  rw [exec, execRegRead, regAt_of_reservedAddress h, respond_error, State.raise_eq_failed]
  rfl

theorem exec_regRead_of_regAt {a : BitVec 9} {r : Reg} (h : regAt a = some r) (s : State) :
    exec (.regRead a) s = .next ((s.setDout (memRead s r)).setResp respOk) := by
  rw [exec, execRegRead, h, respond_ok]

theorem toNat_append_eq_add {m n : Nat} (x : BitVec m) (y : BitVec n) : (x ++ y).toNat = x.toNat * 2 ^ n + y.toNat := by
  rw [BitVec.toNat_append, ← Nat.shiftLeft_add_eq_or_of_lt y.isLt, Nat.shiftLeft_eq]

/-- `CONFIG` as a number (R45): for valid layouts no width sum and no field count overruns its 7 bits. -/
theorem toNat_configReg {l0 l1 : Layout} (h0 : layoutSum l0 ≤ 64) (h1 : layoutSum l1 ≤ 64) (c0 : l0.length ≤ 64)
    (c1 : l1.length ≤ 64) :
    (configReg l0 l1).toNat = 0x5E + 0xD5 * 2 ^ 8 + layoutSum l0 * 2 ^ 16 + layoutSum l1 * 2 ^ 24
      + l0.length * 2 ^ 32 + l1.length * 2 ^ 40 := by
  have hstart : syncStart.toNat = 0x5E := rfl
  have hend : syncEnd.toNat = 0xD5 := rfl
  simp only [configReg, toNat_append_eq_add, BitVec.toNat_ofNat, layoutCount, hstart, hend]
  omega

/-- A layout-entry register as a number (R46): the width below the sign bit at weight 128. -/
theorem toNat_layoutEntry {l : Layout} (hw : ∀ f ∈ l, f.width ≤ 64) (i : Nat) :
    (layoutEntry l i).toNat = match l[i]? with
      | some f => f.width + (if f.signed then 128 else 0)
      | none => 0 := by
  unfold layoutEntry
  cases hf : l[i]? with
  | none => rfl
  | some f =>
    have hlt : f.width < 2 ^ 7 := Nat.lt_of_le_of_lt (hw f (List.mem_of_getElem? hf)) (by decide)
    simp only [toNat_append_eq_add, BitVec.toNat_ofBool, BitVec.toNat_ofNat, Nat.mod_eq_of_lt hlt]
    cases f.signed <;> simp [Nat.add_comm]

/-- Settles O44: the register `r` an address names is read, and each clause's address names its own register by `regAt_of_toNat`. -/
theorem regReadReturnsTheAddressedRegister : Obligations.RegReadReturnsTheAddressedRegister := by
  refine ⟨fun cmd hsel ha => decode_regRead_iff.mpr ⟨hsel, rfl, ha⟩,
    fun s a => ⟨fun ha => exec_regRead_of_reservedAddress ha s, fun ha => ?_⟩⟩
  obtain ⟨r, hr⟩ := regAt_of_not_reservedAddress ha
  have hreg : ∀ {n r'}, a.toNat = n → Reg.addr r' = BitVec.ofNat 9 n → r = r' := fun hn hr' =>
    Option.some.inj (hr.symm.trans (regAt_of_toNat hn hr'))
  refine ⟨memRead s r, exec_regRead_of_regAt hr s, fun k i hn => ?field, fun k hn => ?word, fun j hn => ?frame, fun hn => ?frameLen,
    fun hn => ?accBox, fun hn => ?accCount, fun hn => ?errstat, fun hn => ?config, fun k i hn => ?layout⟩
  case field => rw [hreg hn (Reg.addr_field k i), memRead]
  case word => rw [hreg hn (r' := .word k) rfl, memRead]
  case frame => rw [hreg hn (r' := .frame j) rfl, memRead, BitVec.toNat_setWidth_of_le (by decide)]
  case frameLen => rw [hreg hn (r' := .frameLen) rfl, memRead, BitVec.toNat_setWidth_of_le (by decide)]
  case accBox => rw [hreg hn (r' := .accBox) rfl, memRead]
  case accCount => rw [hreg hn (r' := .accCount) rfl, memRead, BitVec.toNat_setWidth_of_le (by decide)]
  case errstat => rw [hreg hn (r' := .errstat) rfl, memRead, BitVec.toNat_setWidth_of_le (by decide)]
  case config =>
    rw [hreg hn (r' := .config) rfl, memRead]
    exact toNat_configReg (s.layout_sum_le 0) (s.layout_sum_le 1) (s.layout_length_le 0) (s.layout_length_le 1)
  case layout =>
    rw [hreg hn (r' := .layout k i) rfl, memRead, BitVec.toNat_setWidth_of_le (by decide)]
    exact toNat_layoutEntry (fun f hf => (State.layout_width hf).2) i.val

/-! ### REG_WRITE -/

theorem decode_regWrite_iff {cmd : CmdWord} {a : BitVec 9} :
    decode cmd = .ok (.regWrite a) ↔
      cmd &&& 0xFFC01FFF = 0x9 ∧ a = cmd.extractLsb' 13 9 ∧ ¬ reservedAddress a ∧ ¬ readOnlyAddress a :=
  decode_eq_ok_iff_row (r := ⟨.regWrite, 0x9, 0xFFC01FFF⟩) (by decide) rfl operandsOf_regWrite_iff

theorem exec_regWrite_of_regAt {a : BitVec 9} {r : Reg} (h : regAt a = some r) (hw : r.writable = true) (s : State) :
    exec (.regWrite a) s = .next ((memWrite s r s.din).setResp respOk) := by
  simp only [exec, execRegWrite, h, hw, if_true, respond_ok]

/-- R202: an address with no register, or with one that R61 marks RO. -/
theorem exec_regWrite_of_not_writable {a : BitVec 9} (h : reservedAddress a ∨ readOnlyAddress a) (s : State) :
    exec (.regWrite a) s = .next (s.failed 5) := by
  have hfail : exec (.regWrite a) s = .next (s.raise .illegalCommand) := by
    have hw : ¬ writableAddress a = true := fun hw => not_or.mpr ((writableAddress_iff a).mp hw) h
    rw [exec, execRegWrite]
    cases hr : regAt a with
    | none => rfl
    | some r =>
      have hro : r.writable = false := by simpa [writableAddress, hr] using hw
      simp [hro]
  rw [hfail, State.raise_eq_failed]
  rfl

/-- Settles O45: each clause's address names its own register by `regAt_of_toNat`, and `memWrite` writes that one. -/
theorem regWriteUpdatesTheAddressedRegister : Obligations.RegWriteUpdatesTheAddressedRegister := by
  refine ⟨fun cmd hsel hres hro => decode_regWrite_iff.mpr ⟨hsel, rfl, hres, hro⟩,
    fun s a => ⟨fun ha => exec_regWrite_of_not_writable ha s, fun k i hn => ?field, fun k hn => ?word, fun j hn => ?frame, fun hn => ?frameLen⟩⟩
  case field => exact exec_regWrite_of_regAt (regAt_of_toNat hn (Reg.addr_field k i)) rfl s
  case word => exact exec_regWrite_of_regAt (regAt_of_toNat hn (r := .word k) rfl) rfl s
  case frame => exact exec_regWrite_of_regAt (regAt_of_toNat hn (r := .frame j) rfl) rfl s
  case frameLen => exact exec_regWrite_of_regAt (regAt_of_toNat hn (r := .frameLen) rfl) rfl s

end Sys2Proof.Machine
end

section
/-! Failures are precise (60_exceptions.md): a presented command has one of two results, and ERRSTAT records exactly the failures (R221,
R236). -/

namespace Sys2Proof.Machine

/-- What a presented command answers: the failure of the accepted state, or the commit of the decoded command (R18, R89). -/
theorem step_command_cases {s : State} {c : Command} {rest : List HostEvent} (hp : s.pending = .command c :: rest) :
    (∃ e, step s = .next ((s.accept c rest).raise e)) ∨
    ∃ i u, decode c.cmd = .ok i ∧ Commits (s.accept c rest) i u ∧ step s = .next (u.setResp respOk) := by
  obtain ⟨t, ht⟩ := runWord_next c.cmd (s.accept c rest)
  have hstep : step s = .next t := (step_command hp).trans ht
  obtain ⟨hidle, _⟩ | ⟨_, hreset, _⟩ | ⟨_, _, e, hp', rfl⟩ | ⟨_, _, i, u, hp', hd, hu, rfl⟩ := step_cases hstep
  · cases hp.symm.trans hidle
  · cases hp.symm.trans hreset
  · cases hp.symm.trans hp'
    exact .inl ⟨e, hstep⟩
  · cases hp.symm.trans hp'
    exact .inr ⟨i, u, hd, hu, hstep⟩

theorem Err.code_ne_respOk (e : Err) : e.code ≠ respOk := by
  cases e <;> decide

/-- Settles O9: of the two results of `step_command_cases`, a commit responds OK and a failure is `State.failed` at its code. -/
theorem failuresArePreciseAndLeaveNoOtherTrace : Obligations.FailuresArePreciseAndLeaveNoOtherTrace := by
  intro s c rest hp
  obtain ⟨e, hstep⟩ | ⟨_, u, _, _, hstep⟩ := step_command_cases hp
  · obtain ⟨hlo, hhi⟩ := e.code_bounds
    exact ⟨_, hstep, .inr ⟨e.code.toNat, hlo, hhi, State.raise_eq_failed _ e⟩⟩
  · exact ⟨_, hstep, .inl rfl⟩

/-- Settles O10: a commit responds OK, and only that of ERR_CLEAR writes ERRSTAT; a failure responds its code, and `getLsbD_logError`
gives the bits of ERRSTAT after it. -/
theorem errstatRecordsEveryFailureAndOnlyFailures : Obligations.ErrstatRecordsEveryFailureAndOnlyFailures := by
  intro s t c rest hp hstep
  obtain ⟨e, hfail⟩ | ⟨i, u, hd, hu, hcommit⟩ := step_command_cases hp
  · cases hfail.symm.trans hstep
    refine ⟨fun hok => absurd hok e.code_ne_respOk, fun _ b _ => ?_⟩
    have hbit : b = e.code.toNat - 1 ↔ b + 1 = e.code.toNat := by
      have := e.code_bounds
      omega
    rw [State.raise_errstat, State.raise_resp, State.accept_errstat, getLsbD_logError, decide_eq_decide.mpr hbit]
  · cases hcommit.symm.trans hstep
    refine ⟨fun _ hc => ?_, fun hresp => absurd rfl hresp⟩
    have hi : i ≠ .errClear := fun h => hc (h ▸ hd)
    exact hu.errstat_eq hi

end Sys2Proof.Machine
end

section
/-! Every step completes (R257), and reset at the ports (R250, R251). -/

namespace Sys2Proof.Machine

/-- Settles O8: each kind of host event has its step lemma, and `runWord_next` answers a next state for every command word. -/
theorem everyStepCompletes : Obligations.EveryStepCompletes := by
  intro s
  cases hp : s.pending with
  | nil => exact ⟨s, step_idle hp⟩
  | cons event rest =>
    cases event with
    | reset => exact ⟨s.takeReset rest, step_reset hp⟩
    | command c =>
      obtain ⟨t, ht⟩ := runWord_next c.cmd (s.accept c rest)
      exact ⟨t, (step_command hp).trans ht⟩

/-- While `rst` is 1 both handshake outputs are 0, whatever is in flight or has just completed (R250). -/
theorem Clocked.outputs_of_rst {inp : PortIn} (h : inp.rst = true) (c : Clocked) :
    c.outputs inp = { cmdReady := false, rspValid := false, resp := c.core.resp, dout := c.core.dout } := by
  simp [Clocked.outputs, h]

/-- Without reset the handshake outputs show whether a command is in flight and whether one has just completed (R80). -/
theorem Clocked.outputs_of_not_rst {inp : PortIn} (h : inp.rst = false) (c : Clocked) :
    c.outputs inp = { cmdReady := c.inFlight.isNone, rspValid := c.rspValid, resp := c.core.resp, dout := c.core.dout } := by
  simp [Clocked.outputs, h]

/-- A clock edge with `rst` 1 takes the reset, and neither a command in flight nor one presented is left (R250, R251). -/
theorem Clocked.tick_of_rst {inp : PortIn} (h : inp.rst = true) (extra : Nat) (c : Clocked) :
    c.tick extra inp = { core := c.core.takeReset c.core.pending, inFlight := none, rspValid := false } := by
  simp [Clocked.tick, h]

/-- Settles O56: `Clocked.tick_of_rst` is the state after the edge, whose core is at reset by `State.takeReset_atReset`. -/
theorem resetAbandonsTheCommandInFlight : Obligations.ResetAbandonsTheCommandInFlight := by
  intro c extra inp hrst
  rw [Clocked.outputs_of_rst hrst, Clocked.tick_of_rst hrst]
  refine ⟨rfl, rfl, c.core.takeReset_atReset _, State.takeReset_layoutW2 _ _, fun x hx => ?_⟩
  rw [Clocked.outputs_of_not_rst hx]
  exact ⟨rfl, rfl⟩

end Sys2Proof.Machine
end

section
/-! Words and commands correspond one to one (R81, R84, R88), and so do addresses and registers (R61). -/

namespace Sys2Proof.Machine

/-! ### The word of a command -/

/-- Settles O2: R88 is `decode_encode_of_wellFormed`. -/
theorem decodeOfEncodeIsTheCommand : Obligations.DecodeOfEncodeIsTheCommand :=
  fun _ => decode_encode_of_wellFormed

/-- A field put back where it was taken from is the word under the field's ones (R81). -/
theorem extractLsb'_setWidth_shiftLeft (cmd : CmdWord) (lo n : Nat) :
    (cmd.extractLsb' lo n).setWidth 32 <<< lo = cmd &&& (BitVec.allOnes n).setWidth 32 <<< lo := by
  apply BitVec.eq_of_getLsbD_eq
  intro i hi
  by_cases hlo : i < lo
  · simp [hlo]
  · simp [hi, hlo, show lo + (i - lo) = i by omega, Bool.and_comm]

theorem extractLsb'_one (cmd : CmdWord) (b : Nat) : cmd.extractLsb' b 1 = BitVec.ofBool (cmd.getLsbD b) := by
  apply BitVec.eq_of_getLsbD_eq
  intro i hi
  obtain rfl : i = 0 := by omega
  simp

theorem placeW_extractLsb' (cmd : CmdWord) : placeW (cmd.extractLsb' 4 7) = cmd &&& 0x000007F0 :=
  extractLsb'_setWidth_shiftLeft cmd 4 7

theorem placeS_getLsbD (cmd : CmdWord) : placeS (cmd.getLsbD 11) = cmd &&& 0x00000800 := by
  rw [placeS, ← extractLsb'_one]
  exact extractLsb'_setWidth_shiftLeft cmd 11 1

theorem placeK_of_val {cmd : CmdWord} {k : Fin 2} (h : k.val = (cmd.extractLsb' 12 1).toNat) : placeK k = cmd &&& 0x00001000 := by
  rw [placeK, h, BitVec.ofNat_toNat]
  exact extractLsb'_setWidth_shiftLeft cmd 12 1

theorem placeA_extractLsb' (cmd : CmdWord) : placeA (cmd.extractLsb' 13 9) = cmd &&& 0x003FE000 :=
  extractLsb'_setWidth_shiftLeft cmd 13 9

/-- A word is what two masks that cover it select of it. -/
theorem or_eq_of_masks {cmd m m' p f : CmdWord} (hp : cmd &&& m = p) (hf : f = cmd &&& m') (hm : m ||| m' = BitVec.allOnes 32) :
    p ||| f = cmd := by
  rw [← hp, hf, ← BitVec.and_or_distrib_left, hm, BitVec.and_allOnes]

/-- The second mask of a row without operands is empty (R84). -/
theorem eq_of_and_allOnes {cmd p : CmdWord} (h : cmd &&& BitVec.allOnes 32 = p) : p = cmd := by
  rw [← h, BitVec.and_allOnes]

/-- Settles O3: by the row of each command (`decoderFollowsTheOpcodeMap`) the word is the row's pattern with the command's fields put
back in their places. -/
theorem everyLegalWordSpellsExactlyOneCommand : Obligations.EveryLegalWordSpellsExactlyOneCommand := by
  intro cmd i h
  obtain ⟨hnop, hclear, hpush, hpop, hpack, hunpack, hwrap, hcheck, hread, hwrite, herr⟩ := decoderFollowsTheOpcodeMap cmd
  cases i with
  | nop => exact ⟨rfl, eq_of_and_allOnes (hnop.mp h)⟩
  | accClear => exact ⟨rfl, eq_of_and_allOnes (hclear.mp h)⟩
  | frameWrap => exact ⟨rfl, eq_of_and_allOnes (hwrap.mp h)⟩
  | frameCheck => exact ⟨rfl, eq_of_and_allOnes (hcheck.mp h)⟩
  | errClear => exact ⟨rfl, eq_of_and_allOnes (herr.mp h)⟩
  | accPush w =>
    obtain ⟨hsel, rfl⟩ := (hpush w).mp h
    exact ⟨rfl, or_eq_of_masks hsel (placeW_extractLsb' cmd) (by decide)⟩
  | accPop w sgn =>
    obtain ⟨hsel, rfl, rfl⟩ := (hpop w sgn).mp h
    refine ⟨rfl, (BitVec.or_assoc ..).trans (or_eq_of_masks (m' := 0x00000FF0) hsel ?_ (by decide))⟩
    rw [placeW_extractLsb', placeS_getLsbD, ← BitVec.and_or_distrib_left]
    rfl
  | packWord k =>
    obtain ⟨hsel, hk⟩ := (hpack k).mp h
    exact ⟨rfl, or_eq_of_masks hsel (placeK_of_val hk) (by decide)⟩
  | unpackWord k =>
    obtain ⟨hsel, hk⟩ := (hunpack k).mp h
    exact ⟨rfl, or_eq_of_masks hsel (placeK_of_val hk) (by decide)⟩
  | regRead a =>
    obtain ⟨hsel, rfl, ha⟩ := (hread a).mp h
    exact ⟨(readableAddress_iff _).mpr ha, or_eq_of_masks hsel (placeA_extractLsb' cmd) (by decide)⟩
  | regWrite a =>
    obtain ⟨hsel, rfl, ha⟩ := (hwrite a).mp h
    exact ⟨(writableAddress_iff _).mpr ha, or_eq_of_masks hsel (placeA_extractLsb' cmd) (by decide)⟩

/-- Settles O1: the decoder runs on each of the words. -/
theorem sampleWordsDecodeAsTheTestVectorsSay : Obligations.SampleWordsDecodeAsTheTestVectorsSay := by
  unfold Obligations.SampleWordsDecodeAsTheTestVectorsSay
  decide

/-! ### The address of a register -/

/-- An address is that of the register it names (R61). -/
theorem addr_of_regAt {a : BitVec 9} {r : Reg} (h : regAt a = some r) : r.addr = a := by
  have hall : ∀ a : BitVec 9, ∀ r ∈ regAt a, r.addr = a := by decide
  exact hall a r h

theorem regAt_eq_none_iff (a : BitVec 9) : regAt a = none ↔ reservedAddress a := by
  rw [← Option.not_isSome_iff_eq_none, ← not_iff_not, not_not]
  exact readableAddress_iff a

/-- Settles O6, by `regAt_addr`, `addr_of_regAt` and the reserved rows. -/
theorem addressesNameRegistersOneToOne : Obligations.AddressesNameRegistersOneToOne :=
  ⟨regAt_addr, fun _ _ => addr_of_regAt, regAt_eq_none_iff⟩

end Sys2Proof.Machine
end

section
/-! The whole meaning of a command as a relation (R18): what it commits, or why it fails. Which codes a command can raise (R220), and
what its outcome does not depend on (10_state.md sections 5 and 6, R83). -/

namespace Sys2Proof.Machine

/-! ### A command either commits or fails -/

/-- Why a command fails: one constructor per failing command and cause (R220 to R225). The other commands have none. -/
inductive Fails (s : State) : Instr → Err → Prop
  | accPush {w e} (push : accPush s.acc s.din w.toNat = .error e) : Fails s (.accPush w) e
  | accPop {w sgn e} (pop : accPop s.acc w.toNat sgn = .error e) : Fails s (.accPop w sgn) e
  | badLength (len : s.frameLen ≠ frameBytes) : Fails s .frameCheck .badLength
  | badSync (len : s.frameLen = frameBytes) (sync : s.frameByte 0 ≠ syncStart ∨ s.frameByte 17 ≠ syncEnd) :
      Fails s .frameCheck .badSync
  | regRead {a} (reserved : reservedAddress a) : Fails s (.regRead a) .illegalCommand
  | regWrite {a} (refused : reservedAddress a ∨ readOnlyAddress a) : Fails s (.regWrite a) .illegalCommand

/-- What a command commits is what it answers, with `RESP` = OK. -/
theorem Commits.exec_eq {s u : State} {i : Instr} (h : Commits s i u) : exec i s = .next (u.setResp respOk) := by
  cases h with
  | nop | accClear | errClear => rfl
  | accPush push => exact exec_accPush_of_ok push
  | accPop pop => exact exec_accPop_of_ok pop
  | packWord packed => exact exec_packWord_of_ok packed
  | unpackWord unpacked => exact exec_unpackWord_of_ok unpacked
  | frameWrap word0 word1 => simp [exec, execFrameWrap, word0, word1]
  | frameCheck len sync => exact exec_frameCheck_of_framed len sync.1 sync.2
  | regRead reg => exact exec_regRead_of_regAt reg s
  | regWrite reg writable => exact exec_regWrite_of_regAt reg writable s

/-- A failing command answers its failure, from the state before it. -/
theorem Fails.exec_eq {s : State} {i : Instr} {e : Err} (h : Fails s i e) : exec i s = .next (s.raise e) := by
  rw [State.raise_eq_failed]
  cases h with
  | accPush push => exact exec_accPush_of_error push
  | accPop pop => exact exec_accPop_of_error pop
  | badLength len => exact exec_frameCheck_of_badLength len
  | badSync len sync => exact exec_frameCheck_of_badSync len sync
  | regRead reserved => exact exec_regRead_of_reservedAddress reserved s
  | regWrite refused => exact exec_regWrite_of_not_writable refused s

theorem regAt_of_writableAddress {a : BitVec 9} (hres : ¬ reservedAddress a) (hro : ¬ readOnlyAddress a) :
    ∃ r, regAt a = some r ∧ r.writable = true :=
  (Option.any_eq_true ..).mp ((writableAddress_iff a).mpr ⟨hres, hro⟩)

/-- Every command in every state commits or fails (R257). -/
theorem commits_or_fails (i : Instr) (s : State) : (∃ u, Commits s i u) ∨ ∃ e, Fails s i e := by
  cases i with
  | nop => exact .inl ⟨_, .nop⟩
  | accClear => exact .inl ⟨_, .accClear⟩
  | errClear => exact .inl ⟨_, .errClear⟩
  | accPush w =>
    cases h : accPush s.acc s.din w.toNat with
    | ok a => exact .inl ⟨_, .accPush h⟩
    | error e => exact .inr ⟨e, .accPush h⟩
  | accPop w sgn =>
    cases h : accPop s.acc w.toNat sgn with
    | ok r => exact .inl ⟨_, .accPop h⟩
    | error e => exact .inr ⟨e, .accPop h⟩
  | packWord k =>
    obtain ⟨v, h, _⟩ := packedWord_ok (s.bank k) (s.layout_sum_le k)
    exact .inl ⟨_, .packWord h⟩
  | unpackWord k =>
    obtain ⟨v, b, h, _⟩ := unpackedWord_ok (s.layout_sum_le k) (s.payload_length k) (s.bank k)
    exact .inl ⟨_, .unpackWord h⟩
  | frameWrap =>
    obtain ⟨f0, h0, _⟩ := serializeWord_ok 0 (s.wordReg 0) (s.frame.set 0 syncStart)
    obtain ⟨f1, h1, _⟩ := serializeWord_ok 1 (s.wordReg 1) f0
    exact .inl ⟨_, .frameWrap h0 h1⟩
  | frameCheck =>
    by_cases len : s.frameLen = frameBytes
    · by_cases sync : s.frameByte 0 = syncStart ∧ s.frameByte 17 = syncEnd
      · exact .inl ⟨_, .frameCheck len sync⟩
      · exact .inr ⟨_, .badSync len (not_and_or.mp sync)⟩
    · exact .inr ⟨_, .badLength len⟩
  | regRead a =>
    by_cases ha : reservedAddress a
    · exact .inr ⟨_, .regRead ha⟩
    · obtain ⟨r, hr⟩ := regAt_of_not_reservedAddress ha
      exact .inl ⟨_, .regRead hr⟩
  | regWrite a =>
    by_cases ha : reservedAddress a ∨ readOnlyAddress a
    · exact .inr ⟨_, .regWrite ha⟩
    · obtain ⟨hres, hro⟩ := not_or.mp ha
      obtain ⟨r, hr, hw⟩ := regAt_of_writableAddress hres hro
      exact .inl ⟨_, .regWrite hr hw⟩

/-! ### The response codes of each command -/

theorem accPush_error {a : Accumulator} {v : Word64} {w : Nat} {e : Err} (h : accPush a v w = .error e) : e = .fieldOverflow := by
  obtain ⟨_, hpush⟩ | ⟨_, _, hpush, _⟩ := accPush_cases a v w
  · cases hpush.symm.trans h
    rfl
  · cases hpush.symm.trans h

theorem accPop_error {a : Accumulator} {w : Nat} {sgn : Bool} {e : Err} (h : accPop a w sgn = .error e) : e = .invalidWidth := by
  obtain ⟨_, hpop⟩ | ⟨_, _, _, _, hpop, _⟩ := accPop_cases a w sgn
  · cases hpop.symm.trans h
    rfl
  · cases hpop.symm.trans h

/-- Settles O11: a commit responds OK, which every command may, and each cause of `Fails` has its own code. -/
theorem eachCommandRaisesOnlyItsOwnCodes : Obligations.EachCommandRaisesOnlyItsOwnCodes := by
  intro i s
  obtain ⟨u, hu⟩ | ⟨e, he⟩ := commits_or_fails i s
  · refine ⟨_, hu.exec_eq, ?_⟩
    cases i <;> exact List.mem_cons_self
  · refine ⟨_, he.exec_eq, ?_⟩
    cases he with
    | accPush push => simp [accPush_error push, Err.code]
    | accPop pop => simp [accPop_error pop, Err.code]
    | badLength | badSync | regRead | regWrite => simp [Err.code]

/-! ### RESP -/

@[simp] theorem memRead_setResp (s : State) (c : BitVec 4) (r : Reg) : memRead (s.setResp c) r = memRead s r := by
  cases r <;> rfl

theorem memWrite_setResp (s : State) (c : BitVec 4) (r : Reg) (v : Word64) :
    memWrite (s.setResp c) r v = (memWrite s r v).setResp c := by
  cases r <;> rfl

/-- No command's writes depend on `RESP` or touch it (R40). -/
theorem Commits.setResp {s u : State} {i : Instr} (h : Commits s i u) (c : BitVec 4) : Commits (s.setResp c) i (u.setResp c) := by
  cases h with
  | nop => exact .nop
  | accClear => exact .accClear
  | accPush push => exact .accPush push
  | accPop pop => exact .accPop pop
  | packWord packed => exact .packWord packed
  | unpackWord unpacked => exact .unpackWord unpacked
  | frameWrap word0 word1 => exact .frameWrap word0 word1
  | frameCheck len sync => exact .frameCheck len sync
  | regRead reg => exact memRead_setResp s c _ ▸ .regRead reg
  | regWrite reg writable => exact memWrite_setResp s c _ s.din ▸ .regWrite reg writable
  | errClear => exact .errClear

/-- The checks of ACC_PUSH read ACC and DIN, those of ACC_POP read ACC, those of FRAME_CHECK the frame and its length, and no check reads
anything else. -/
theorem Fails.congr {s t : State} {i : Instr} {e : Err} (h : Fails s i e)
    (hpush : ∀ w, i = .accPush w → t.acc = s.acc ∧ t.din = s.din) (hpop : ∀ w sgn, i = .accPop w sgn → t.acc = s.acc)
    (hframe : t.frame = s.frame) (hlen : t.frameLen = s.frameLen) : Fails t i e := by
  cases h with
  | accPush push =>
    obtain ⟨hacc, hdin⟩ := hpush _ rfl
    exact .accPush (by rwa [hacc, hdin])
  | accPop pop => exact .accPop (by rwa [hpop _ _ rfl])
  | badLength len => exact .badLength (by rwa [hlen])
  | badSync len sync => exact .badSync (by rwa [hlen]) (by rwa [State.frameByte, State.frameByte, hframe])
  | regRead reserved => exact .regRead reserved
  | regWrite refused => exact .regWrite refused

/-- Settles O51: the commit or failure is the same whatever `RESP` was, and writes it. -/
theorem noCommandReadsTheResponse : Obligations.NoCommandReadsTheResponse := by
  intro i s c
  obtain ⟨u, hu⟩ | ⟨e, he⟩ := commits_or_fails i s
  · exact (hu.setResp c).exec_eq.trans hu.exec_eq.symm
  · exact (he.congr (t := s.setResp c) (fun _ _ => ⟨rfl, rfl⟩) (fun _ _ _ => rfl) rfl rfl).exec_eq.trans he.exec_eq.symm

/-! ### DIN -/

/-- The state with another operand on the DIN port. -/
def State.withDin (s : State) (d : Word64) : State := { s with din := d }

@[simp] theorem State.withDin_banks (s : State) (d : Word64) : (s.withDin d).banks = s.banks := rfl
@[simp] theorem State.withDin_errstat (s : State) (d : Word64) : (s.withDin d).errstat = s.errstat := rfl
@[simp] theorem State.withDin_layoutW2 (s : State) (d : Word64) : (s.withDin d).layoutW2 = s.layoutW2 := rfl

theorem memRead_withDin (s : State) (d : Word64) (r : Reg) : memRead (s.withDin d) r = memRead s r := by
  cases r <;> rfl

/-- A command other than ACC_PUSH and REG_WRITE commits the same writes whatever DIN is (R83). -/
theorem Commits.withDin {s u : State} {i : Instr} (h : Commits s i u) (hpush : ∀ w, i ≠ .accPush w) (hwrite : ∀ a, i ≠ .regWrite a)
    (d : Word64) : Commits (s.withDin d) i (u.withDin d) := by
  cases h with
  | nop => exact .nop
  | accClear => exact .accClear
  | accPush => exact absurd rfl (hpush _)
  | accPop pop => exact .accPop pop
  | packWord packed => exact .packWord packed
  | unpackWord unpacked => exact .unpackWord unpacked
  | frameWrap word0 word1 => exact .frameWrap word0 word1
  | frameCheck len sync => exact .frameCheck len sync
  | regRead reg => exact memRead_withDin s d _ ▸ .regRead reg
  | regWrite => exact absurd rfl (hwrite _)
  | errClear => exact .errClear

/-- Settles O50, by `Commits.withDin` and, for a failure, `Fails.congr`. -/
theorem onlyPushAndRegWriteReadDin : Obligations.OnlyPushAndRegWriteReadDin := by
  intro i s d hpush hwrite
  obtain ⟨u, hu⟩ | ⟨e, he⟩ := commits_or_fails i s
  · exact ⟨_, hu.exec_eq, (hu.withDin hpush hwrite d).exec_eq⟩
  · have he' : Fails (s.withDin d) i e := he.congr (fun w hi => absurd hi (hpush w)) (fun _ _ _ => rfl) rfl rfl
    exact ⟨_, he.exec_eq, he'.exec_eq⟩

/-! ### ACC -/

@[simp] theorem memWrite_acc (s : State) (r : Reg) (v : Word64) : (memWrite s r v).acc = s.acc := by
  rw [memWrite_frame]

/-- The accumulators of the packer, the unpacker and the framer are scratch (R47): what these commands commit neither depends on ACC nor
touches it. -/
theorem Commits.setAcc {s u : State} {i : Instr} (h : Commits s i u)
    (hi : (∃ k, i = .packWord k) ∨ (∃ k, i = .unpackWord k) ∨ i = .frameWrap ∨ i = .frameCheck) (a : Accumulator) :
    u.acc = s.acc ∧ Commits (s.setAcc a) i (u.setAcc a) := by
  obtain ⟨k, rfl⟩ | ⟨k, rfl⟩ | rfl | rfl := hi
  · cases h with
    | packWord packed => exact ⟨rfl, .packWord packed⟩
  · cases h with
    | unpackWord unpacked => exact ⟨rfl, .unpackWord unpacked⟩
  · cases h with
    | frameWrap word0 word1 => exact ⟨rfl, .frameWrap word0 word1⟩
  · cases h with
    | frameCheck len sync => exact ⟨rfl, .frameCheck len sync⟩

/-- Settles O52, by `Commits.setAcc` and, for a failed FRAME_CHECK, `Fails.congr`. -/
theorem frameCommandsNeitherReadNorWriteAcc : Obligations.FrameCommandsNeitherReadNorWriteAcc := by
  intro i s a hi
  obtain ⟨u, hu⟩ | ⟨e, he⟩ := commits_or_fails i s
  · obtain ⟨hacc, hu'⟩ := hu.setAcc hi a
    exact ⟨_, hu.exec_eq, hacc, hu'.exec_eq⟩
  · have hpush : ∀ w, i ≠ .accPush w := by
      rintro w rfl
      simp at hi
    have hpop : ∀ w sgn, i ≠ .accPop w sgn := by
      rintro w sgn rfl
      simp at hi
    have he' : Fails (s.setAcc a) i e :=
      he.congr (fun w h => absurd h (hpush w)) (fun w sgn h => absurd h (hpop w sgn)) rfl rfl
    exact ⟨_, he.exec_eq, rfl, he'.exec_eq⟩

end Sys2Proof.Machine
end

section
/-! The invariant of R32, R33 and R220: it holds at reset, every step keeps it, and so every run is safe (R257). -/

namespace Sys2Proof.Machine

theorem Accumulator.empty_ok : Accumulator.empty.ok := by decide

theorem accPush_keeps_ok {a a' : Accumulator} {v : Word64} {w : Nat} (ha : a.ok) (h : accPush a v w = .ok a') : a'.ok := by
  obtain ⟨_, hbox⟩ := ha
  refine ⟨?_, accPush_box_lt hbox h⟩
  obtain ⟨_, hpush⟩ | ⟨_, b, hpush, hn, _⟩ := accPush_cases a v w
  · cases hpush.symm.trans h
  · cases hpush.symm.trans h
    omega

theorem accPop_keeps_ok {a a' : Accumulator} {w : Nat} {sgn : Bool} {r : Word64} (ha : a.ok) (h : accPop a w sgn = .ok (a', r)) :
    a'.ok := by
  obtain ⟨hcount, _⟩ := ha
  refine ⟨?_, accPop_box_lt h⟩
  obtain ⟨_, hpop⟩ | ⟨_, _, b, _, hpop, hn, _⟩ := accPop_cases a w sgn
  · cases hpop.symm.trans h
  · cases hpop.symm.trans h
    omega

/-- Every commit keeps the accumulator within its invariant (R115). -/
theorem Commits.keeps_acc_ok {s u : State} {i : Instr} (h : Commits s i u) (hs : s.acc.ok) : u.acc.ok := by
  cases h with
  | accClear => exact Accumulator.empty_ok
  | accPush push => exact accPush_keeps_ok hs push
  | accPop pop => exact accPop_keeps_ok hs pop
  | _ => simpa using hs

theorem State.resetOf_inv (l : ValidLayout) : (State.resetOf l).Inv :=
  ⟨Accumulator.empty_ok, Nat.zero_le 5⟩

/-- Settles O17: each of the states is `State.resetOf` some layout. -/
theorem invariantAtReset : Obligations.InvariantAtReset := by
  refine ⟨State.resetOf_inv _, fun l s h => ?_⟩
  cases hl : layoutFailure l with
  | some e => cases (construct_of_some hl).symm.trans h
  | none =>
    cases (construct_of_none hl).symm.trans h
    exact State.resetOf_inv _

/-- Every step keeps the invariant: a failure leaves ACC alone and responds its code, a commit keeps ACC's invariant and responds OK. -/
theorem step_keeps_inv {s t : State} (hs : s.Inv) (h : step s = .next t) : t.Inv := by
  have ⟨hacc, _⟩ := hs
  obtain ⟨_, rfl⟩ | ⟨rest, _, rfl⟩ | ⟨c, rest, e, _, rfl⟩ | ⟨c, rest, i, u, _, _, hu, rfl⟩ := step_cases h
  · exact hs
  · exact State.resetOf_inv s.layoutW2
  · exact ⟨hacc, e.code_bounds.2⟩
  · exact ⟨hu.keeps_acc_ok hacc, Nat.zero_le 5⟩

/-- Settles O18, by `step_keeps_inv`. -/
theorem everyStepKeepsTheInvariant : Obligations.EveryStepKeepsTheInvariant :=
  fun _ _ => step_keeps_inv

/-- Settles O19, by induction on the number of steps: the first answers a next state, and keeps the invariant for the rest. -/
theorem everyRunFromTheInvariantIsSafe : Obligations.EveryRunFromTheInvariantIsSafe := by
  intro k
  induction k with
  | zero => exact fun s hs => ⟨s, rfl, hs⟩
  | succ k ih =>
    intro s hs
    obtain ⟨t, ht⟩ := everyStepCompletes s
    rw [SafeRun, core_run_succ k ht]
    exact ih t (step_keeps_inv hs ht)

/-- Settles O7, by the step lemma of each kind of event. -/
theorem stepExecutesTheDecodedCommand : Obligations.StepExecutesTheDecodedCommand :=
  ⟨fun _ _ _ _ hp hd => (step_command hp).trans (runWord_ok hd _), fun _ _ _ _ => step_illegal, fun _ => step_idle⟩

end Sys2Proof.Machine
end

section
/-! The registers: what a write changes and a read sees (20_memory.md), and which commands write each register (10_state.md sections 2,
3 and 5). -/

namespace Sys2Proof.Machine

/-! ### Reading and writing by address -/

@[simp] theorem memRead_setDout (s : State) (v : Word64) (r : Reg) : memRead (s.setDout v) r = memRead s r := by
  cases r <;> rfl

/-- Settles O47: a read commits the register to DOUT, and no register of R61 is DOUT or RESP, so it reads the same again. -/
theorem registerReadsAreRepeatable : Obligations.RegisterReadsAreRepeatable := by
  intro s a ha
  obtain ⟨r, hr⟩ := regAt_of_not_reservedAddress ha
  refine ⟨_, exec_regRead_of_regAt hr s, rfl, ?_⟩
  rw [exec_regRead_of_regAt hr, memRead_setResp, memRead_setDout]
  rfl

/-- What a register holds of a value written to it (R17, R68): its low byte, zero-extended, or all of it. -/
def Reg.fit (r : Reg) (v : Word64) : Word64 := if r.bytes = 1 then (v.setWidth 8).setWidth 64 else v

@[simp] theorem memWrite_wordReg (s : State) (r : Reg) (v : Word64) (k : Fin 2) :
    (memWrite s r v).wordReg k = if r = .word k then v else s.wordReg k := by
  cases r with
  | word k' => simp [memWrite, State.setWord_wordReg]
  | _ => rfl

@[simp] theorem memWrite_fieldReg (s : State) (r : Reg) (v : Word64) (k : Fin 2) (i : Fin 64) :
    (memWrite s r v).fieldReg k i = if r = .field k i then v else s.fieldReg k i := by
  cases r with
  | field k' i' => simp [memWrite, State.setField_fieldReg]
  | _ => rfl

@[simp] theorem memWrite_frameByte (s : State) (r : Reg) (v : Word64) (j : Fin 18) :
    (memWrite s r v).frameByte j = if r = .frame j then v.setWidth 8 else s.frameByte j := by
  cases r with
  | frame j' => simp [memWrite, State.frameByte, Vector.getElem_set, Fin.ext_iff]
  | _ => rfl

@[simp] theorem memWrite_frameLen (s : State) (r : Reg) (v : Word64) :
    (memWrite s r v).frameLen = if r = .frameLen then v.setWidth 8 else s.frameLen := by
  cases r <;> rfl

@[simp] theorem memWrite_layout (s : State) (r : Reg) (v : Word64) (k : Fin 2) : (memWrite s r v).layout k = s.layout k :=
  State.layout_congr (memWrite_layoutW2 s r v) k

/-- A register read after a register write sees what was written there, and no other register's write (R17). -/
theorem memRead_memWrite (s : State) {r : Reg} (hw : r.writable = true) (v : Word64) (r' : Reg) :
    memRead (memWrite s r v) r' = if r' = r then r.fit v else memRead s r' := by
  split
  next h =>
    subst h
    cases r' with
    | field | word | frame | frameLen => simp [memRead, Reg.fit, Reg.bytes]
    | accBox | accCount | errstat | config | layout => cases hw
  next h =>
    cases r' <;> simp [memRead, Ne.symm h]

/-- The 1-byte registers that may be written, by their addresses (R68). -/
theorem oneByteAddress_addr_iff {r : Reg} (hw : r.writable = true) : oneByteAddress r.addr ↔ r.bytes = 1 := by
  cases r with
  | field k i => revert k i; decide
  | word k => revert k; decide
  | frame j => revert j; decide
  | frameLen => decide
  | accBox | accCount | errstat | config | layout => cases hw

/-- Settles O46: `memRead_memWrite`, since addresses name registers one to one. -/
theorem registerReadsSeeExactlyTheLastWrite : Obligations.RegisterReadsSeeExactlyTheLastWrite := by
  intro s a b hres hro hb
  obtain ⟨r, hr, hw⟩ := regAt_of_writableAddress hres hro
  obtain ⟨r', hr'⟩ := regAt_of_not_reservedAddress hb
  refine ⟨_, _, _, exec_regWrite_of_regAt hr hw s, exec_regRead_of_regAt hr' _, exec_regRead_of_regAt hr' s, ?_⟩
  simp only [State.setResp_dout, State.setDout_dout, memRead_setResp, memRead_memWrite s hw]
  have hsame : b = a ↔ r' = r := by
    constructor
    · rintro rfl
      exact Option.some.inj (hr'.symm.trans hr)
    · rintro rfl
      exact (addr_of_regAt hr').symm.trans (addr_of_regAt hr)
  have hbyte : oneByteAddress a ↔ r.bytes = 1 := addr_of_regAt hr ▸ oneByteAddress_addr_iff hw
  simp only [hsame, hbyte, Reg.fit]

/-! ### The writers of each register -/

/-- No commit but those of ACC_POP and REG_READ writes DOUT (R39). -/
theorem Commits.dout_eq {s u : State} {i : Instr} (h : Commits s i u) (hpop : ∀ w sgn, i ≠ .accPop w sgn)
    (hread : ∀ a, i ≠ .regRead a) : u.dout = s.dout := by
  cases h with
  | accPop => exact absurd rfl (hpop _ _)
  | regRead => exact absurd rfl (hread _)
  | regWrite => rw [memWrite_frame]
  | _ => rfl

/-- Settles O48: a failure leaves DOUT alone, and a commit that does not responds OK and is one of those two. -/
theorem onlySuccessfulPopsAndReadsChangeDout : Obligations.OnlySuccessfulPopsAndReadsChangeDout := by
  intro s t c rest hp hstep hdout
  obtain ⟨e, hfail⟩ | ⟨i, u, hd, hu, hcommit⟩ := step_command_cases hp
  · cases hfail.symm.trans hstep
    exact absurd rfl hdout
  · cases hcommit.symm.trans hstep
    refine ⟨rfl, ?_⟩
    by_contra hother
    obtain ⟨hpop, hread⟩ := not_or.mp hother
    refine hdout (hu.dout_eq ?_ ?_)
    · rintro w sgn rfl
      exact hpop ⟨w, sgn, hd⟩
    · rintro a rfl
      exact hread ⟨a, hd⟩

/-- No commit writes the host's inputs. -/
theorem Commits.inputs_eq {s u : State} {i : Instr} (h : Commits s i u) : u.din = s.din ∧ u.pending = s.pending := by
  cases h with
  | regWrite =>
    rw [memWrite_frame]
    exact ⟨rfl, rfl⟩
  | _ => exact ⟨rfl, rfl⟩

/-- UNPACK_WORD writes only the slots its layout uses (R160). -/
theorem unpackedWord_unused {l : Layout} (hsum : layoutSum l ≤ 64) {bytes : List Byte} (hlen : bytes.length = 8) {b b' : Bank}
    {v : Word64} (h : unpackedWord l bytes b = .ok (v, b')) {i : Fin 64} (hi : l.length ≤ i.val) : b'[i] = b[i] := by
  obtain ⟨_, _, hok, _, _, hunused⟩ := unpackedWord_ok hsum hlen b
  cases hok.symm.trans h
  simpa using hunused i.val hi

/-- The writers of FIELD[k][m] (R34). -/
theorem Commits.field_writers {s u : State} {i : Instr} (h : Commits s i u) (k : Fin 2) (m : Fin 64)
    (hne : u.fieldReg k m ≠ s.fieldReg k m) :
    i = .regWrite (BitVec.ofNat 9 (64 * k.val + m.val)) ∨ (i = .unpackWord k ∧ m.val < (s.layout k).length) := by
  cases h with
  | unpackWord unpacked =>
    right
    rw [State.setBank_fieldReg] at hne
    split at hne
    next hk =>
      subst hk
      refine ⟨rfl, Nat.lt_of_not_le fun hle => hne ?_⟩
      exact unpackedWord_unused (s.layout_sum_le _) (s.payload_length _) unpacked hle
    · exact absurd rfl hne
  | regWrite reg =>
    left
    rw [memWrite_fieldReg] at hne
    split at hne
    next hr => rw [← addr_of_regAt reg, hr, Reg.addr_field]
    · exact absurd rfl hne
  | _ => exact absurd rfl hne

/-- The writers of WORD[k] (R35). -/
theorem Commits.word_writers {s u : State} {i : Instr} (h : Commits s i u) (k : Fin 2) (hne : u.wordReg k ≠ s.wordReg k) :
    i = .packWord k ∨ i = .unpackWord k ∨ i = .regWrite (BitVec.ofNat 9 (0x080 + k.val)) := by
  cases h with
  | @packWord k' v packed =>
    by_cases hk : k' = k
    · exact .inl (hk ▸ rfl)
    · exact absurd ((s.setWord_wordReg k' k v).trans (if_neg hk)) hne
  | @unpackWord k' v b unpacked =>
    by_cases hk : k' = k
    · exact .inr (.inl (hk ▸ rfl))
    · exact absurd ((s.setWord_wordReg k' k v).trans (if_neg hk)) hne
  | regWrite reg =>
    rw [memWrite_wordReg] at hne
    split at hne
    next hr =>
      subst hr
      exact .inr (.inr (congrArg _ (addr_of_regAt reg).symm))
    · exact absurd rfl hne
  | _ => exact absurd rfl hne

/-- The writers of FRAME[j] (R36). -/
theorem Commits.frame_writers {s u : State} {i : Instr} (h : Commits s i u) (j : Fin 18) (hne : u.frameByte j ≠ s.frameByte j) :
    i = .frameWrap ∨ i = .regWrite (BitVec.ofNat 9 (0x090 + j.val)) := by
  cases h with
  | frameWrap => exact .inl rfl
  | regWrite reg =>
    rw [memWrite_frameByte] at hne
    split at hne
    next hr =>
      subst hr
      exact .inr (congrArg _ (addr_of_regAt reg).symm)
    · exact absurd rfl hne
  | _ => exact absurd rfl hne

/-- The writers of FRAME_LEN (R37). -/
theorem Commits.frameLen_writers {s u : State} {i : Instr} (h : Commits s i u) (hne : u.frameLen ≠ s.frameLen) :
    i = .frameWrap ∨ i = .regWrite 0x0B0 := by
  cases h with
  | frameWrap => exact .inl rfl
  | regWrite reg =>
    rw [memWrite_frameLen] at hne
    split at hne
    next hr =>
      subst hr
      exact .inr (congrArg _ (addr_of_regAt reg).symm)
    · exact absurd rfl hne
  | _ => exact absurd rfl hne

/-- The writers of ACC (R31). -/
theorem Commits.acc_writers {s u : State} {i : Instr} (h : Commits s i u) (hne : u.acc ≠ s.acc) :
    i = .accClear ∨ (∃ w, i = .accPush w) ∨ ∃ w sgn, i = .accPop w sgn := by
  cases h with
  | accClear => exact .inl rfl
  | accPush => exact .inr (.inl ⟨_, rfl⟩)
  | accPop => exact .inr (.inr ⟨_, _, rfl⟩)
  | regWrite => exact absurd (memWrite_acc ..) hne
  | _ => exact absurd rfl hne

/-- Settles O49: a failure writes none of these registers, and the writers of each are those of a commit. -/
theorem registersChangeOnlyByTheirOwnCommands : Obligations.RegistersChangeOnlyByTheirOwnCommands := by
  intro i s
  obtain ⟨u, hu⟩ | ⟨e, he⟩ := commits_or_fails i s
  · obtain ⟨hdin, hpending⟩ := hu.inputs_eq
    exact ⟨_, hu.exec_eq, hdin, hpending, hu.layoutW2_eq, hu.acc_writers, hu.field_writers, hu.word_writers, hu.frame_writers,
      hu.frameLen_writers⟩
  · exact ⟨_, he.exec_eq, rfl, rfl, rfl, fun h => absurd rfl h, fun _ _ h => absurd rfl h, fun _ h => absurd rfl h,
      fun _ h => absurd rfl h, fun h => absurd rfl h⟩

end Sys2Proof.Machine
end

section
/-! The accumulator as a first-in first-out queue of bits (40_accumulator.md, R116), and the bit mask (R11). -/

namespace Sys2Proof.Machine

/-- Settles O21, from the mask bit by bit. -/
theorem maskSelectsExactlyTheLowBits : Obligations.MaskSelectsExactlyTheLowBits := by
  refine ⟨fun w i _ hi => ?_, mask_zero, mask_64⟩
  rw [getLsbD_mask, decide_eq_true hi, Bool.and_true]

/-- Settles O30: of 64 bits a pop of w ≤ 64 succeeds. -/
theorem fullAccumulatorPopsItsTopBits : Obligations.FullAccumulatorPopsItsTopBits := by
  intro box w sgn hw
  have hn : (⟨box, 64⟩ : Accumulator).n.toNat = 64 := rfl
  obtain ⟨hfail, _⟩ | ⟨_, _, a, r, hpop, _, _, hr⟩ := accPop_cases ⟨box, 64⟩ w sgn
  · omega
  · exact ⟨a, by rw [hpop, hr, hn]⟩

/-! ### Values as bitstreams -/

@[simp] theorem bitsOf_length (v : Word64) (w : Nat) : (bitsOf v w).length = w := by
  simp [bitsOf]

@[simp] theorem Accumulator.stream_length (a : Accumulator) : a.stream.length = a.n.toNat := bitsOf_length _ _

theorem bitsOf_eq_iff {u v : Word64} {w : Nat} : bitsOf u w = bitsOf v w ↔ ∀ i, i < w → u.getLsbD i = v.getLsbD i := by
  simp only [bitsOf, List.map_inj_left, List.mem_range]
  constructor
  · intro h i hi
    have := h (w - 1 - i) (by omega)
    rwa [show w - 1 - (w - 1 - i) = i by omega] at this
  · exact fun h i hi => h _ (by omega)

/-- A bitstream in two parts: the upper m bits first, then the lower w. -/
theorem bitsOf_append {x y z : Word64} {m w : Nat} (hupper : ∀ i, i < m → x.getLsbD (w + i) = y.getLsbD i)
    (hlower : ∀ i, i < w → x.getLsbD i = z.getLsbD i) : bitsOf x (m + w) = bitsOf y m ++ bitsOf z w := by
  rw [bitsOf, List.range_add, List.map_append, List.map_map]
  refine congrArg₂ (· ++ ·) (List.map_congr_left fun i hi => ?_) (List.map_congr_left fun i hi => ?_)
  · rw [List.mem_range] at hi
    rw [← hupper _ (by omega), show m + w - 1 - i = w + (m - 1 - i) by omega]
  · rw [List.mem_range] at hi
    rw [← hlower _ (by omega), Function.comp_apply, show m + w - 1 - (m + i) = w - 1 - i by omega]

theorem extend64_eq_of_bitsOf_eq {u v : Word64} {w : Nat} (h : bitsOf u w = bitsOf v w) (sgn : Bool) :
    extend64 sgn w u = extend64 sgn w v :=
  extend64_congr (bitsOf_eq_iff.mp h)

/-- Extension keeps the low bits, which are all it reads (R14). -/
theorem bitsOf_extend64 (sgn : Bool) {w : Nat} (hw : w ≤ 64) (v : Word64) : bitsOf (extend64 sgn w v) w = bitsOf v w :=
  bitsOf_eq_iff.mpr fun i hi => by rw [getLsbD_extend64 _ _ _ (by omega), if_pos hi]

/-- An accumulator without bits is the cleared one (R33). -/
theorem Accumulator.eq_empty_of_stream_nil {a : Accumulator} (ha : a.ok) (h : a.stream = []) : a = Accumulator.empty := by
  obtain ⟨_, hbox⟩ := ha
  have hn : a.n.toNat = 0 := by rw [← a.stream_length, h, List.length_nil]
  refine Accumulator.ext_bits hn fun i _ => ?_
  rw [(lt_two_pow_iff_bits _ _).mp hbox i (by omega)]
  simp

/-! ### The primitives on the queue -/

/-- A push within 64 bits appends the value's low bits at the back (R110). -/
theorem accPush_stream {a : Accumulator} (ha : a.ok) (v : Word64) {w : Nat} (hw : a.n.toNat + w ≤ 64) :
    ∃ a', accPush a v w = .ok a' ∧ a'.ok ∧ a'.stream = a.stream ++ bitsOf v w := by
  obtain ⟨_, _⟩ | ⟨_, a', hpush, hn, hbits⟩ := accPush_cases a v w
  · omega
  refine ⟨a', hpush, accPush_keeps_ok ha hpush, ?_⟩
  rw [Accumulator.stream, hn]
  refine bitsOf_append (fun i hi => ?_) fun i hi => ?_
  · rw [hbits, if_neg (by omega), Nat.add_sub_cancel_left, decide_eq_true (by omega), Bool.true_and]
  · rw [hbits, if_pos hi]

/-- A pop of at most n bits takes them from the front, extended (R111). -/
theorem accPop_stream {a : Accumulator} (ha : a.ok) {w : Nat} (sgn : Bool) (hw : w ≤ a.n.toNat) :
    ∃ a' r, accPop a w sgn = .ok (a', r) ∧ a'.ok ∧ a.stream = bitsOf r w ++ a'.stream ∧ r = extend64 sgn w r := by
  have ⟨hcount, _⟩ := ha
  obtain ⟨_, _⟩ | ⟨hw64, _, a', r, hpop, hn, hbits, hr⟩ := accPop_cases a w sgn
  · omega
  have hfront : bitsOf r w = bitsOf (a.box >>> (a.n.toNat - w)) w := by rw [hr, bitsOf_extend64 sgn hw64]
  refine ⟨a', r, hpop, accPop_keeps_ok ha hpop, ?_, by rw [extend64_eq_of_bitsOf_eq hfront, hr]⟩
  rw [hfront, Accumulator.stream, Accumulator.stream, hn]
  conv_lhs => rw [show a.n.toNat = w + (a.n.toNat - w) by omega]
  refine bitsOf_append (fun i _ => (BitVec.getLsbD_ushiftRight ..).symm) fun i hi => ?_
  rw [hbits, decide_eq_true hi, Bool.true_and]

/-- A pop of the value at the front returns it, masked and extended. -/
theorem accPop_of_stream {a : Accumulator} (ha : a.ok) {v : Word64} {w : Nat} {rest : List Bool} (h : a.stream = bitsOf v w ++ rest)
    (sgn : Bool) : ∃ a', accPop a w sgn = .ok (a', extend64 sgn w v) ∧ a'.ok ∧ a'.stream = rest := by
  have hn : a.n.toNat = w + rest.length := by rw [← a.stream_length, h, List.length_append, bitsOf_length]
  obtain ⟨a', r, hpop, ha', hstream, hr⟩ := accPop_stream ha sgn (w := w) (by omega)
  obtain ⟨hv, hrest⟩ := List.append_inj (hstream.symm.trans h) (by simp)
  exact ⟨a', by rw [hpop, ← extend64_eq_of_bitsOf_eq hv sgn, ← hr], ha', hrest⟩

/-! ### The commands on the queue -/

/-- Settles O26, by `accPush_stream` and `accPop_stream`. -/
theorem accumulatorIsAFirstInFirstOutBitQueue : Obligations.AccumulatorIsAFirstInFirstOutBitQueue := by
  intro s w hs
  constructor
  · intro hw
    obtain ⟨a, hpush, ha, hstream⟩ := accPush_stream hs s.din hw
    exact ⟨_, exec_accPush_of_ok hpush, ha, hstream⟩
  · intro sgn hw
    obtain ⟨a, r, hpop, ha, hstream, hr⟩ := accPop_stream hs sgn hw
    exact ⟨_, exec_accPop_of_ok hpop, ha, hstream, hr⟩

/-- An ACC_PUSH transaction within 64 bits appends its operand's low bits. -/
theorem issueInstr_accPush {s : State} {w : BitVec 7} (hs : s.acc.ok) (hw : s.acc.stream.length + w.toNat ≤ 64) (v : Word64) :
    let t := issueInstr (.accPush w) v s
    t.resp = respOk ∧ t.acc.ok ∧ t.acc.stream = s.acc.stream ++ bitsOf v w.toNat := by
  rw [Accumulator.stream_length] at hw
  obtain ⟨a, hpush, ha, hstream⟩ := accPush_stream hs v hw
  rw [issueInstr_eq (decode_encode_accPush w) (exec_accPush_of_ok (s := { s with din := v }) hpush)]
  exact ⟨rfl, ha, hstream⟩

/-- An ACC_POP transaction of the value at the front returns it, masked and extended. -/
theorem issueInstr_accPop {s : State} {w : BitVec 7} {v : Word64} {rest : List Bool} (hs : s.acc.ok)
    (h : s.acc.stream = bitsOf v w.toNat ++ rest) (sgn : Bool) (d : Word64) :
    let t := issueInstr (.accPop w sgn) d s
    t.resp = respOk ∧ t.dout = extend64 sgn w.toNat v ∧ t.acc.ok ∧ t.acc.stream = rest := by
  obtain ⟨a, hpop, ha, hstream⟩ := accPop_of_stream hs h sgn
  rw [issueInstr_eq (decode_encode_accPop w sgn) (exec_accPop_of_ok (s := { s with din := d }) hpop)]
  exact ⟨rfl, rfl, ha, hstream⟩

/-- Settles O27: the queue is the old bits, A and B after the pushes, and the pops take the three from its front. -/
theorem pushedFieldsPopInPushOrder : Obligations.PushedFieldsPopInPushOrder := by
  intro s a b va vb d s0 sa sb hs hsum s1 s2 s3 s4 s5
  obtain ⟨hr1, hok1, hq1⟩ := issueInstr_accPush (w := a) hs (by rw [Accumulator.stream_length]; omega) va
  obtain ⟨hr2, hok2, hq2⟩ := issueInstr_accPush (w := b) hok1 (by simp [hq1, hsum]) vb
  rw [hq1, List.append_assoc] at hq2
  obtain ⟨hr3, _, hok3, hq3⟩ := issueInstr_accPop (v := s.acc.box) hok2 hq2 s0 d
  obtain ⟨hr4, hd4, hok4, hq4⟩ := issueInstr_accPop hok3 hq3 sa d
  obtain ⟨hr5, hd5, hok5, hq5⟩ := issueInstr_accPop hok4 (hq4.trans (List.append_nil _).symm) sb d
  exact ⟨hr1, hr2, hr3, hr4, hr5, hd4, hd5, Accumulator.eq_empty_of_stream_nil hok5 hq5⟩

end Sys2Proof.Machine
end

section
/-! The packer without signedness (R147), and the host's programs (R92): acc.load, fields.wr, and frame.encode with frame.decode. -/

namespace Sys2Proof.Machine

/-! ### The packer reads widths only -/

/-- The packer's loop depends on the widths of a layout alone. -/
theorem pushFields_congr (b : Bank) : ∀ (l m : Layout), l.map FieldSpec.width = m.map FieldSpec.width →
    ∀ (i : Nat) (a : Accumulator), pushFields b l i a = pushFields b m i a
  | [], [], _, _, _ => rfl
  | [], _ :: _, h, _, _ => by simp at h
  | _ :: _, [], h, _, _ => by simp at h
  | f :: l, g :: m, h, i, a => by
    obtain ⟨hw, hrest⟩ := List.cons_eq_cons.mp h
    simp only [pushFields, hw, pushFields_congr b l m hrest]

/-- Settles O33: the pad and the loop depend on the widths alone. -/
theorem packerIgnoresSignedness : Obligations.PackerIgnoresSignedness := by
  intro l m b h
  have hsum : layoutSum l = layoutSum m := congrArg List.sum h
  simp only [packedWord, pushPad, hsum, pushFields_congr b l m h]

/-! ### Running the host's lines -/

@[simp] theorem runHost_nil (s : State) : runHost [] s = s := rfl

/-- The host issues a line that waits for nothing, or whose wait is met (R92). -/
theorem runHost_cons {line : AsmLine} {onlyIfOk : Bool} {s : State} (h : onlyIfOk = false ∨ s.resp = respOk) (hs : List HostStep) :
    runHost (⟨line, onlyIfOk⟩ :: hs) s = runHost hs (issueInstr line.instr line.operand s) := by
  have hissue : (HostStep.mk line onlyIfOk).perform s = issueInstr line.instr line.operand s := by
    rw [HostStep.perform, if_neg]
    · rfl
    · obtain h | h := h <;> simp [h]
  rw [runHost, hissue]

/-- Settles O53: ACC_CLEAR, then a push of all 64 bits onto the cleared accumulator. -/
theorem accLoadFillsTheAccumulator : Obligations.AccLoadFillsTheAccumulator := by
  intro s v
  have hclear : issueInstr .accClear 0 s = { s with din := 0, acc := Accumulator.empty, resp := respOk } :=
    issueInstr_eq (decode_encode_of_wellFormed rfl) rfl
  have hpush : accPush Accumulator.empty (BitVec.ofInt 64 v) 64 = .ok ⟨BitVec.ofInt 64 v, 64⟩ := by
    simpa using accPush_empty (BitVec.ofInt 64 v) (Nat.le_refl 64)
  refine ⟨BitVec.ofInt 64 v, ?_⟩
  rw [Pseudo.expand, runHost_cons (.inl rfl), runHost_cons (.inl rfl), runHost_nil]
  simp only [AsmLine.instr, AsmLine.operand, hclear]
  exact issueInstr_eq (decode_encode_accPush 64)
    (exec_accPush_of_ok (s := { s with din := BitVec.ofInt 64 v, acc := Accumulator.empty, resp := respOk }) hpush)

/-! ### fields.wr -/

/-- A line of fields.wr (R92). -/
def fieldLine (k : Fin 2) (p : Fin 64 × Int) : HostStep := ⟨.regWr (.name (.field k p.1)) p.2, false⟩

/-- A line of fields.wr writes its field register and no other. -/
theorem issueInstr_regWrite_field (s : State) (k : Fin 2) (i : Fin 64) (d : Word64) (j : Fin 2) (m : Fin 64) :
    (issueInstr (.regWrite (Reg.field k i).addr) d s).fieldReg j m = if k = j ∧ i = m then d else s.fieldReg j m := by
  have hreg : regAt (Reg.field k i).addr = some (.field k i) := regAt_addr _
  have hwf : (Instr.regWrite (Reg.field k i).addr).wellFormed = true := by simp [Instr.wellFormed, writableAddress, hreg, Reg.writable]
  rw [issueInstr_eq (decode_encode_of_wellFormed hwf) (exec_regWrite_of_regAt hreg rfl _)]
  exact State.setField_fieldReg _ k j i m d

theorem runHost_fieldLine_cons (k : Fin 2) (i : Fin 64) (v : Int) (ps : List (Fin 64 × Int)) (s : State) :
    runHost (((i, v) :: ps).map (fieldLine k)) s =
      runHost (ps.map (fieldLine k)) (issueInstr (.regWrite (Reg.field k i).addr) (BitVec.ofInt 64 v) s) :=
  runHost_cons (.inl rfl) _

/-- A field register that no line names keeps its value. -/
theorem runHost_fieldLines_other (k j : Fin 2) (m : Fin 64) : ∀ (ps : List (Fin 64 × Int)) (s : State),
    (k ≠ j ∨ ∀ p ∈ ps, p.1 ≠ m) → (runHost (ps.map (fieldLine k)) s).fieldReg j m = s.fieldReg j m
  | [], _, _ => rfl
  | (i, v) :: ps, s, h => by
    have hhead : ¬ (k = j ∧ i = m) := fun ⟨hk, hi⟩ => h.elim (· hk) fun hps => hps (i, v) List.mem_cons_self hi
    have htail : k ≠ j ∨ ∀ p ∈ ps, p.1 ≠ m := h.imp_right fun hps p hp => hps p (List.mem_cons_of_mem _ hp)
    rw [runHost_fieldLine_cons, runHost_fieldLines_other k j m ps _ htail, issueInstr_regWrite_field, if_neg hhead]

/-- A field register holds v after lines that write nothing else to it, if one of them names it or it held v before. -/
theorem runHost_fieldLines_same (k : Fin 2) {i : Fin 64} {v : Int} : ∀ (ps : List (Fin 64 × Int)) (s : State),
    (∀ p ∈ ps, p.1 = i → p.2 = v) → (i, v) ∈ ps ∨ s.fieldReg k i = BitVec.ofInt 64 v →
    (runHost (ps.map (fieldLine k)) s).fieldReg k i = BitVec.ofInt 64 v
  | [], _, _, h => h.resolve_left List.not_mem_nil
  | (i', v') :: ps, s, hagree, h => by
    rw [runHost_fieldLine_cons]
    refine runHost_fieldLines_same k ps _ (fun p hp => hagree p (List.mem_cons_of_mem _ hp)) ?_
    rw [issueInstr_regWrite_field]
    by_cases hi : i' = i
    · have hv : v' = v := hagree (i', v') List.mem_cons_self hi
      rw [if_pos ⟨rfl, hi⟩, hv]
      exact .inr rfl
    · rw [if_neg fun hsame => hi hsame.2]
      exact h.imp_left fun hmem => (List.mem_cons.mp hmem).resolve_left fun heq => hi (congrArg Prod.fst heq).symm

/-- Slot i is paired with value i (R92). -/
theorem mem_finRange_zip_iff {n : Nat} {α : Type} {vs : List α} {i : Fin n} {v : α} :
    (i, v) ∈ (List.finRange n).zip vs ↔ vs[i.val]? = some v := by
  rw [List.mem_iff_getElem?]
  simp only [List.getElem?_zip_eq_some, List.getElem?_eq_some_iff (l := List.finRange n), List.getElem_finRange]
  constructor
  · rintro ⟨j, ⟨_, rfl⟩, hv⟩
    exact hv
  · exact fun hv => ⟨i.val, ⟨by simp, rfl⟩, hv⟩

/-- Settles O54: the lines name the slots in order, each once, and the k-th bank only. -/
theorem fieldsWrFillsTheSlotsInOrder : Obligations.FieldsWrFillsTheSlotsInOrder := by
  intro s k vs _ t
  refine ⟨fun i => ?_, fun j i hj => ?_⟩
  · cases hv : vs[i.val]? with
    | some v =>
      have hagree : ∀ p ∈ (List.finRange 64).zip vs, p.1 = i → p.2 = v := by
        rintro ⟨i, v'⟩ hp rfl
        exact Option.some.inj ((mem_finRange_zip_iff.mp hp).symm.trans hv)
      exact runHost_fieldLines_same k _ s hagree (.inl (mem_finRange_zip_iff.mpr hv))
    | none =>
      have hother : ∀ p ∈ (List.finRange 64).zip vs, p.1 ≠ i := by
        rintro ⟨i, v⟩ hp rfl
        cases hv.symm.trans (mem_finRange_zip_iff.mp hp)
      exact runHost_fieldLines_other k k i _ s (.inr hother)
  · exact runHost_fieldLines_other k j i _ s (.inl (Ne.symm hj))

/-! ### frame.encode, then frame.decode -/

/-- The word register of word k is the packed word of its bank. -/
def State.packed (s : State) (k : Fin 2) : Prop := packedWord (s.layout k) (s.bank k) = .ok (s.wordReg k)

/-- The frame's payload holds the word register of word k (R63). -/
def State.framed (s : State) (k : Fin 2) : Prop :=
  ∀ m : Fin 8, s.frameByte (payloadIndex k m) = (s.wordReg k).extractLsb' (56 - 8 * m.val) 8

/-- Unpacking a word from a bank of fields in range gives back that bank (R161). -/
theorem unpackedWord_of_packed {s : State} {k : Fin 2} (hrange : s.fieldsInRange k) (hpacked : s.packed k) (hframed : s.framed k) :
    unpackedWord (s.layout k) (s.payload k) (s.bank k) = .ok (s.wordReg k, s.bank k) := by
  obtain ⟨w, hw, hplaced, _⟩ := packedWord_ok (s.bank k) (s.layout_sum_le k)
  cases hw.symm.trans hpacked
  obtain ⟨v, b, hv, hbytes, hused, hunused⟩ := unpackedWord_ok (s.layout_sum_le k) (s.payload_length k) (s.bank k)
  have hword : v = s.wordReg k := eq_of_extractLsb'_bytes fun m => (hbytes m.val _ (s.payload_getElem? k m)).trans (hframed m)
  have hbank : b = s.bank k := by
    apply Vector.ext
    intro i hi
    suffices b[i]? = (s.bank k)[i]? by simpa [hi] using this
    cases hf : (s.layout k)[i]? with
    | none => exact hunused i (List.getElem?_eq_none_iff.mp hf)
    | some f =>
      have hin : extend64 f.signed f.width (s.fieldReg k ⟨i, hi⟩) = s.fieldReg k ⟨i, hi⟩ :=
        FieldSpec.extend64_of_inRange (State.layout_width (List.mem_of_getElem? hf)) (hrange ⟨i, hi⟩ f hf)
      have hread : extend64 f.signed f.width (v >>> fieldPos (s.layout k) i) = s.fieldReg k ⟨i, hi⟩ := by
        rw [← hin, ← slot_bank, hword]
        exact extend64_congr fun t ht => (BitVec.getLsbD_ushiftRight ..).trans (hplaced i f hf t ht)
      rw [hused i f hf hi, hread, State.fieldReg]
      simp [hi]
  rw [hv, hword, hbank]

/-- UNPACK_WORD of a word whose fields are in range, packed and framed writes nothing new: it only responds OK. -/
theorem exec_unpackWord_of_packed {s : State} {k : Fin 2} (hrange : s.fieldsInRange k) (hpacked : s.packed k) (hframed : s.framed k) :
    exec (.unpackWord k) s = .next (s.setResp respOk) := by
  have hword : s.setWord k (s.wordReg k) = s := by
    rw [State.setWord, State.wordReg, Fin.getElem_fin, Vector.set_getElem_self]
  have hbank : s.setBank k (s.bank k) = s := by
    rw [State.setBank, State.bank, Fin.getElem_fin, Vector.set_getElem_self]
  rw [exec_unpackWord_of_ok (unpackedWord_of_packed hrange hpacked hframed), hword, hbank]

theorem runHost_append (hs hs' : List HostStep) (s : State) : runHost (hs ++ hs') s = runHost hs' (runHost hs s) := by
  induction hs generalizing s with
  | nil => rfl
  | cons h hs ih => exact ih (h.perform s)

theorem issueInstr_packWord (k : Fin 2) (d : Word64) (s : State) :
    ∃ v, packedWord (s.layout k) (s.bank k) = .ok v ∧ issueInstr (.packWord k) d s = ((s.withDin d).setWord k v).setResp respOk := by
  obtain ⟨v, hv, _⟩ := packedWord_ok (s.bank k) (s.layout_sum_le k)
  exact ⟨v, hv, issueInstr_eq (decode_encode_packWord k) (exec_packWord_of_ok (s := s.withDin d) hv)⟩

/-- What frame.encode makes of a state (R92): both words packed from the field registers as they were, and the frame wrapped around them. -/
structure State.EncodedFrom (s t : State) : Prop where
  layoutW2 : t.layoutW2 = s.layoutW2
  banks : t.banks = s.banks
  errstat : t.errstat = s.errstat
  packed (k : Fin 2) : t.packed k
  framed (k : Fin 2) : t.framed k
  length : t.frameLen = frameBytes
  start : t.frameByte 0 = syncStart
  stop : t.frameByte 17 = syncEnd

theorem runHost_frameEncode (s : State) : s.EncodedFrom (runHost Pseudo.frameEncode.expand s) := by
  obtain ⟨v0, hv0, hpack0⟩ := issueInstr_packWord 0 0 s
  let s0 := ((s.withDin 0).setWord 0 v0).setResp respOk
  obtain ⟨v1, hv1, hpack1⟩ := issueInstr_packWord 1 0 s0
  let s1 := ((s0.withDin 0).setWord 1 v1).setResp respOk
  have hword0 : s1.wordReg 0 = v0 :=
    ((s0.withDin 0).setWord_wordReg 1 0 v1).trans (((s.withDin 0).setWord_wordReg 0 0 v0).trans (if_pos rfl))
  have hword1 : s1.wordReg 1 = v1 := ((s0.withDin 0).setWord_wordReg 1 1 v1).trans (if_pos rfl)
  have hpacked : ∀ k, s1.packed k :=
    Fin.forall_fin_two.mpr ⟨hv0.trans (congrArg Except.ok hword0.symm), hv1.trans (congrArg Except.ok hword1.symm)⟩
  obtain ⟨f, hwrap, hstart, hstop, hbytes⟩ := exec_frameWrap_ok (s1.withDin 0)
  have hrun : runHost Pseudo.frameEncode.expand s = (((s1.withDin 0).setFrame f).setFrameLen frameBytes).setResp respOk := by
    rw [Pseudo.expand, runHost_cons (.inl rfl), runHost_cons (.inl rfl), runHost_cons (.inl rfl), runHost_nil]
    simp only [AsmLine.instr, AsmLine.operand]
    rw [hpack0, hpack1]
    exact issueInstr_eq (decode_encode_of_wellFormed rfl) hwrap
  rw [hrun]
  exact {
    layoutW2 := by simp [s1, s0]
    banks := by simp [s1, s0]
    errstat := by simp [s1, s0]
    packed := hpacked
    framed := hbytes
    length := rfl
    start := hstart
    stop := hstop }

/-- frame.decode of a wrapped frame whose words are packed from fields in range writes nothing new: every line responds OK (R92). -/
theorem runHost_frameDecode {s : State} (hlen : s.frameLen = frameBytes) (hstart : s.frameByte 0 = syncStart)
    (hstop : s.frameByte 17 = syncEnd) (hrange : ∀ k, s.fieldsInRange k) (hpacked : ∀ k, s.packed k) (hframed : ∀ k, s.framed k) :
    runHost Pseudo.frameDecode.expand s = (s.withDin 0).setResp respOk := by
  have hcheck : issueInstr .frameCheck 0 s = (s.withDin 0).setResp respOk :=
    issueInstr_eq (decode_encode_of_wellFormed rfl) (exec_frameCheck_of_framed (s := s.withDin 0) hlen hstart hstop)
  have hunpack : ∀ k, issueInstr (.unpackWord k) 0 ((s.withDin 0).setResp respOk) = (s.withDin 0).setResp respOk := fun k =>
    issueInstr_eq (decode_encode_unpackWord k)
      (exec_unpackWord_of_packed (s := (s.withDin 0).setResp respOk) (hrange k) (hpacked k) (hframed k))
  rw [Pseudo.expand, runHost_cons (.inl rfl)]
  simp only [AsmLine.instr, AsmLine.operand, hcheck]
  rw [runHost_cons (.inr rfl)]
  simp only [AsmLine.instr, AsmLine.operand, hunpack]
  rw [runHost_cons (.inr rfl)]
  simp only [AsmLine.instr, AsmLine.operand, hunpack, runHost_nil]

theorem State.EncodedFrom.fieldReg_eq {s t : State} (h : s.EncodedFrom t) (k : Fin 2) (i : Fin 64) :
    t.fieldReg k i = s.fieldReg k i := by
  rw [State.fieldReg, State.fieldReg, State.bank, State.bank, h.banks]

/-- The fields of an encoded sample that was in range are in range when they are read back. -/
theorem State.EncodedFrom.fieldsInRange {s t : State} (h : s.EncodedFrom t) {k : Fin 2} (hrange : s.fieldsInRange k) :
    t.fieldsInRange k := by
  intro i f hf
  rw [State.layout_congr h.layoutW2] at hf
  rw [h.fieldReg_eq]
  exact hrange i f hf

theorem State.EncodedFrom.runHost_frameDecode {s t : State} (h : s.EncodedFrom t) (hrange : ∀ k, s.fieldsInRange k) :
    runHost Pseudo.frameDecode.expand t = (t.withDin 0).setResp respOk :=
  Machine.runHost_frameDecode h.length h.start h.stop (fun k => h.fieldsInRange (hrange k)) h.packed h.framed

/-- Settles O40: frame.encode keeps the field registers, so they are in range when frame.decode reads them back. -/
theorem encodeThenDecodeRestoresTheSample : Obligations.EncodeThenDecodeRestoresTheSample := by
  intro s hrange0 hrange1
  have henc := runHost_frameEncode s
  rw [runHost_append]
  generalize runHost Pseudo.frameEncode.expand s = t at henc ⊢
  rw [henc.runHost_frameDecode (Fin.forall_fin_two.mpr ⟨hrange0, hrange1⟩)]
  exact ⟨rfl, henc.errstat, henc.fieldReg_eq, fun _ => rfl⟩

end Sys2Proof.Machine
end

section
/-! A command at the ports (R80, R255, R256): accepted, in flight for its latency, completed as a whole; and the idle core (R234). -/

namespace Sys2Proof.Machine

/-! ### One clock edge without reset -/

/-- With nothing presented and nothing in flight an edge changes nothing but `rsp_valid` (R234). -/
theorem Clocked.tick_idle {c : Clocked} {inp : PortIn} (hflight : c.inFlight = none) (hrst : inp.rst = false)
    (hvalid : inp.cmdValid = false) (extra : Nat) : c.tick extra inp = { c with rspValid := false } := by
  simp [Clocked.tick, hrst, hflight, hvalid]

/-- Settles O57, by `Clocked.tick_idle`. -/
theorem idleCyclesHoldAllState : Obligations.IdleCyclesHoldAllState := by
  intro c extra inp hflight hrst hvalid
  rw [Clocked.outputs_of_not_rst hrst, Clocked.tick_idle hflight hrst hvalid]
  exact ⟨by rw [hflight]; rfl, rfl, hflight, rfl⟩

/-- A presented command is accepted when nothing is in flight (R80). -/
theorem Clocked.tick_accept {c : Clocked} {inp : PortIn} (hflight : c.inFlight = none) (hrst : inp.rst = false)
    (hvalid : inp.cmdValid = true) (extra : Nat) : c.tick extra inp = c.acceptCommand extra ⟨inp.cmd, inp.din⟩ := by
  simp [Clocked.tick, hrst, hflight, hvalid]

/-- The core with `command` in flight, which takes `left` cycles beyond the next one. -/
def Clocked.busy (s : State) (command : Command) (left : Nat) : Clocked :=
  { core := s, inFlight := some (command, left), rspValid := false }

theorem Clocked.tick_busy_succ {inp : PortIn} (hrst : inp.rst = false) (s : State) (command : Command) (left extra : Nat) :
    (Clocked.busy s command (left + 1)).tick extra inp = Clocked.busy s command left := by
  simp [Clocked.tick, Clocked.busy, hrst]

/-- The last cycle of a command: the state after the whole command, its response, and room for the next (R80). -/
theorem Clocked.tick_busy_zero {inp : PortIn} (hrst : inp.rst = false) (s : State) (command : Command) (extra : Nat) :
    (Clocked.busy s command 0).tick extra inp = { core := issue command s, inFlight := none, rspValid := true } := by
  simp [Clocked.tick, Clocked.busy, Clocked.complete, hrst]

/-! ### The cycles of a command -/

/-- Without reset a command in flight only counts down, whatever the host drives (R256). -/
theorem Clocked.run_busy (s : State) (command : Command) : ∀ (left : Nat) (cycles : List (Nat × PortIn)),
    (∀ p ∈ cycles, p.2.rst = false) → cycles.length ≤ left →
    Clocked.run cycles (Clocked.busy s command left) = Clocked.busy s command (left - cycles.length)
  | _, [], _, _ => rfl
  | left + 1, (extra, inp) :: cycles, hrst, hlen => by
    obtain ⟨hinp, hrst⟩ := List.forall_mem_cons.mp hrst
    rw [Clocked.run, Clocked.tick_busy_succ hinp, Clocked.run_busy s command left cycles hrst (Nat.le_of_succ_le_succ hlen),
      List.length_cons, Nat.add_sub_add_right]

/-- A command in flight completes in the cycle its latency ends with (R256). -/
theorem Clocked.run_busy_complete (s : State) (command : Command) : ∀ (left : Nat) (cycles : List (Nat × PortIn)),
    (∀ p ∈ cycles, p.2.rst = false) → cycles.length = left + 1 →
    Clocked.run cycles (Clocked.busy s command left) = { core := issue command s, inFlight := none, rspValid := true }
  | 0, [(extra, inp)], hrst, _ => Clocked.tick_busy_zero (hrst _ List.mem_cons_self) s command extra
  | left + 1, (extra, inp) :: cycles, hrst, hlen => by
    obtain ⟨hinp, hrst⟩ := List.forall_mem_cons.mp hrst
    rw [Clocked.run, Clocked.tick_busy_succ hinp, Clocked.run_busy_complete s command left cycles hrst (Nat.succ_inj.mp hlen)]

theorem Clocked.cmdReady_iff (c : Clocked) (inp : PortIn) : (c.outputs inp).cmdReady = true ↔ inp.rst = false ∧ c.inFlight = none := by
  simp [Clocked.outputs]

theorem Clocked.outputs_busy (s : State) (command : Command) (left : Nat) (x : PortIn) :
    ((Clocked.busy s command left).outputs x).cmdReady = false ∧ ((Clocked.busy s command left).outputs x).rspValid = false := by
  simp [Clocked.outputs, Clocked.busy]

/-- From acceptance to completion a command of latency `extra + 1` is in flight (R256). -/
theorem Clocked.run_accepted {c : Clocked} {extra : Nat} {inp : PortIn} {cycles : List (Nat × PortIn)}
    (haccept : c.tick extra inp = c.acceptCommand extra ⟨inp.cmd, inp.din⟩) (hlen : cycles.length < extra)
    (hrst : ∀ p ∈ cycles, p.2.rst = false) :
    ∃ left, Clocked.run ((extra, inp) :: cycles) c = Clocked.busy c.core ⟨inp.cmd, inp.din⟩ left := by
  cases extra with
  | zero => exact absurd hlen (Nat.not_lt_zero _)
  | succ left =>
    rw [Clocked.run, haccept]
    exact ⟨_, Clocked.run_busy c.core ⟨inp.cmd, inp.din⟩ left cycles hrst (Nat.le_of_lt_succ hlen)⟩

/-- A command of latency `extra + 1` completes at the edge that accepts it, or `extra` cycles later (R80, R256). -/
theorem Clocked.run_completed {c : Clocked} {extra : Nat} {inp : PortIn} {cycles : List (Nat × PortIn)}
    (haccept : c.tick extra inp = c.acceptCommand extra ⟨inp.cmd, inp.din⟩) (hlen : cycles.length = extra)
    (hrst : ∀ p ∈ cycles, p.2.rst = false) :
    Clocked.run ((extra, inp) :: cycles) c = c.complete ⟨inp.cmd, inp.din⟩ := by
  rw [Clocked.run, haccept]
  cases extra with
  | zero =>
    rw [List.eq_nil_of_length_eq_zero hlen]
    rfl
  | succ left => exact Clocked.run_busy_complete c.core ⟨inp.cmd, inp.din⟩ left cycles hrst hlen

/-- Settles O55: `Clocked.run_accepted` is each cycle before the command's completion, `Clocked.run_completed` the one after. -/
theorem acceptedCommandsCompleteAfterAnyLatency : Obligations.AcceptedCommandsCompleteAfterAnyLatency := by
  intro c extra inp later hready hvalid hlen hrst
  obtain ⟨hinp, hflight⟩ := (c.cmdReady_iff inp).mp hready
  have haccept := Clocked.tick_accept hflight hinp hvalid extra
  constructor
  · intro m x hm
    have hshort : (later.take m).length < extra := (List.length_take_le ..).trans_lt hm
    obtain ⟨left, hmid⟩ := Clocked.run_accepted haccept hshort fun p hp => hrst p (List.mem_of_mem_take hp)
    obtain ⟨hcmd, hrsp⟩ := Clocked.outputs_busy c.core ⟨inp.cmd, inp.din⟩ left x
    rw [hmid]
    exact ⟨hcmd, hrsp, rfl⟩
  · rw [Clocked.run_completed haccept hlen hrst]
    exact ⟨rfl, fun x hx => Clocked.outputs_of_not_rst hx _⟩

end Sys2Proof.Machine
end
